-- ==== Sys2Proof/Word.lean ====
section
/-! DEFINITION. The plain types of the machine: bytes, 32-bit words, register indices, and memory as data
(00_scope R7, R9, R10). -/

namespace Sys2Proof

/-- A memory byte (R7: the memory unit is 1 byte). -/
abbrev Byte := BitVec 8

/-- A register value, an address or an instruction word (R7: 32 bits). -/
abbrev Word := BitVec 32

/-- A 5-bit register index (R7, R12). -/
abbrev RegIx := BitVec 5

/-- The byte memory as plain data: (address, byte) pairs. Its one canonical form is `Memory.wf` (Machine/Memory.lean). -/
abbrev Memory := List Host.Cell

end Sys2Proof
end

