-- ==== Sys2Proof/Machine/Flags.lean ====
section
/-! DEFINITION. The core has no flags (10_state R30). What takes their place: the relations a compare delivers into a
register and a branch tests (00_scope R10, 41_compare). -/

namespace Sys2Proof.Machine

/-- `bool(c)`: the 32-bit value 1 if `c` holds and 0 otherwise (R10). -/
def boolWord (c : Bool) : Word := if c then 1 else 0

/-- `x >=s y` (R10, R172). -/
def geSigned (x y : Word) : Bool := decide (y.toInt ≤ x.toInt)

/-- `x <s y` (R10, R173). -/
def ltSigned (x y : Word) : Bool := decide (x.toInt < y.toInt)

/-- `sext_8(v)` (R10, R223). -/
def sext8 (v : Word) : Word := (v.extractLsb' 0 8).signExtend 32

/-- `zext_8(v)` (R10, R224). -/
def zext8 (v : Word) : Word := (v.extractLsb' 0 8).setWidth 32

end Sys2Proof.Machine
end

