-- ==== Sys2Proof/Config.lean ====
section
/-! DEFINITION. What an implementation or the host fixes (00_scope R8), and the model's free values: constants with no
body, of which nothing can be proved. -/

namespace Sys2Proof

/-- HALT_CMP (R8, R275): how the run loop compares `pc` with PROGRAM_END. The spec leaves it open (D19). -/
inductive HaltCmp where
  /-- the run halts where `pc` equals the end address -/
  | eq
  /-- the run halts where `pc` is at or above the end address -/
  | ge
deriving DecidableEq, Repr, Inhabited

/-- UNKNOWN_POLICY (R8, R105): what a word with no handler does. -/
inductive UnknownPolicy where
  /-- it is logged and the run continues -/
  | skip
  /-- it raises `UnknownInstruction` (R243) -/
  | fault
deriving DecidableEq, Repr, Inhabited

/-- BRANCH_ALIGN_CHECK (R8, R191): when a misaligned branch target faults. -/
inductive BranchAlignCheck where
  /-- whenever the branch executes -/
  | always
  /-- only when the branch is taken -/
  | takenOnly
deriving DecidableEq, Repr, Inhabited

/-- CMPLE_EXPANSION (R8, R126): how the assembler expands `cmple` and `cmpgt`. -/
inductive CmpleExpansion where
  /-- the two sources are swapped (the spec's default) -/
  | swapSources
  /-- the source catalog's literal text, which swaps the destination with the first source -/
  | literal
deriving DecidableEq, Repr, Inhabited

/-- OPCODE_VALUES (R8, 92 D1): the numeric values the opcode tables are built from. The spec's default table is
`OpcodeValues.specDefault` (Decode.lean). -/
structure OpcodeValues where
  /-- the opcode every R-format instruction shares (30_encoding R93) -/
  rType : BitVec 6
  /-- the opcode of the J-format instruction -/
  call : BitVec 6
  /-- the opcodes of the I-format instructions (30_encoding R96) -/
  (ldbu addi stb br ldb cmpgei andi bge cmplti ori stw
    blt ldw cmpnei xori bne cmpeqi beq andhi orhi xorhi : BitVec 6)
  /-- the values in `OPX[10:5]` of the R-format instructions (30_encoding R97) -/
  (ret nor cmpge and cmplt slli sll or cmpne srli srl xor cmpeq add sub : BitVec 6)
deriving DecidableEq, Repr

/-- The parameters of R8 that the core itself reads. They stand in the machine's state, which no step changes in them, so
that a statement about every state is a statement about every value of every parameter. -/
structure Params where
  /-- MEM_SIZE: addresses `0 .. memSize - 1` exist (R50, D11). -/
  memSize : Nat
  haltCmp : HaltCmp
  unknownPolicy : UnknownPolicy
  branchAlignCheck : BranchAlignCheck
  /-- OPCODE_VALUES: the table the codec decodes by -/
  opcodes : OpcodeValues
deriving DecidableEq, Repr

/-- A program image as the assembler produces it and `loadProgram` consumes it (R14, R127, R128, R271). -/
structure Program where
  /-- text bytes followed by data bytes (R127), loaded at address 0 (R61, D14) -/
  image : List Byte
  /-- how many 32-bit instructions the text region holds; PROGRAM_END is four times it (R8, D19) -/
  instructionCount : Nat
  /-- the address a run starts at (R274) -/
  entryPoint : Word
deriving DecidableEq, Repr, Inhabited

/-- What a system-call action leaves (R253): register contents, memory contents and host-visible outputs. The machine
keeps `x[0] = 0` and the memory array's size whatever this record holds (State.applySyscall). -/
structure SyscallEffect where
  regs : Vector Word 32
  cells : List Host.Cell
  out : List Nat
deriving Inhabited

/-- FREE VALUE, HALT_CMP of the machine at reset (R8: open; log 17). -/
opaque Config.haltCmp : HaltCmp

/-- FREE VALUE, the effect of a host action on registers and memory (R253: `x'` and `mem'` are arbitrary; log 23): of the
action's number, how many actions have run before, and the registers and memory it is given. -/
opaque Config.syscallAction : Nat → Nat → Vector Word 32 → Memory → SyscallEffect

end Sys2Proof
end

