-- ==== Sys2Proof/Syntax.lean ====
section
/-! DEFINITION. The 37 instructions of 00_scope R5, one constructor per row of spec/opcode_table.json. The operands stand
in the assembler's order (30_encoding R113); a field the instruction does not use (R92) is no operand of it. -/

namespace Sys2Proof

/-- An instruction. `a`, `b`, `c` are the register fields A, B, C of R81 and R83, `imm` the 16-bit immediate, `imm5` the
shift amount of R84, `imm26` the word address of R86. -/
inductive Instr where
  -- R-format arithmetic and logic: `op rC, rA, rB` (40_alu section 2)
  | add (c a b : RegIx)
  | sub (c a b : RegIx)
  | and (c a b : RegIx)
  | or (c a b : RegIx)
  | xor (c a b : RegIx)
  | nor (c a b : RegIx)
  -- I-format arithmetic and logic: `op rB, rA, imm16` (40_alu section 3)
  | addi (b a : RegIx) (imm : BitVec 16)
  | andi (b a : RegIx) (imm : BitVec 16)
  | andhi (b a : RegIx) (imm : BitVec 16)
  | ori (b a : RegIx) (imm : BitVec 16)
  | orhi (b a : RegIx) (imm : BitVec 16)
  | xori (b a : RegIx) (imm : BitVec 16)
  | xorhi (b a : RegIx) (imm : BitVec 16)
  -- shifts: `op rC, rA, rB` and `op rC, rA, imm5` (40_alu section 4)
  | sll (c a b : RegIx)
  | srl (c a b : RegIx)
  | slli (c a : RegIx) (imm5 : BitVec 5)
  | srli (c a : RegIx) (imm5 : BitVec 5)
  -- compares (41_compare)
  | cmpeq (c a b : RegIx)
  | cmpne (c a b : RegIx)
  | cmpge (c a b : RegIx)
  | cmplt (c a b : RegIx)
  | cmpeqi (b a : RegIx) (imm : BitVec 16)
  | cmpnei (b a : RegIx) (imm : BitVec 16)
  | cmpgei (b a : RegIx) (imm : BitVec 16)
  | cmplti (b a : RegIx) (imm : BitVec 16)
  -- control transfer (42_control)
  | br (imm : BitVec 16)
  | beq (a b : RegIx) (imm : BitVec 16)
  | bne (a b : RegIx) (imm : BitVec 16)
  | bge (a b : RegIx) (imm : BitVec 16)
  | blt (a b : RegIx) (imm : BitVec 16)
  | call (imm26 : BitVec 26)
  | ret
  -- memory: `op rB, imm16(rA)` (43_loadstore)
  | ldw (b : RegIx) (imm : BitVec 16) (a : RegIx)
  | stw (b : RegIx) (imm : BitVec 16) (a : RegIx)
  | ldb (b : RegIx) (imm : BitVec 16) (a : RegIx)
  | ldbu (b : RegIx) (imm : BitVec 16) (a : RegIx)
  | stb (b : RegIx) (imm : BitVec 16) (a : RegIx)
deriving DecidableEq, Repr

end Sys2Proof
end

