-- ==== Sys2Proof/WellFormed.lean ====
section
/-! DEFINITION. Well-formedness of what is raw data: the codec's numeric fields (30_encoding R88, R89: a field is
meaningful "within its valid bit width"), a table of opcode values (R95) and a program (R127, D11). An `Instr` holds each operand in a bit vector of its
field's own width, so there is nothing more to check in one: `Instr.wellFormed` checks the fields it is encoded from
(Decode.lean), and Laws/Encoding.lean proves that every instruction passes. -/

namespace Sys2Proof

/-- The fields of the I-format as numbers, before the codec masks them (R81, R88). -/
structure IFields where
  op : Nat
  a : Nat
  b : Nat
  imm16 : Nat
deriving DecidableEq, Repr

/-- The fields of the R-format as numbers (R83, R88). -/
structure RFields where
  op : Nat
  a : Nat
  b : Nat
  c : Nat
  opx : Nat
deriving DecidableEq, Repr

/-- The fields of the J-format as numbers (R85, R88). -/
structure JFields where
  op : Nat
  imm26 : Nat
deriving DecidableEq, Repr

/-- Every I-format field is within its width (R89). -/
def IFields.wellFormed (f : IFields) : Bool :=
  f.op < 64 && f.a < 32 && f.b < 32 && f.imm16 < 65536

/-- Every R-format field is within its width (R89). -/
def RFields.wellFormed (f : RFields) : Bool :=
  f.op < 64 && f.a < 32 && f.b < 32 && f.c < 32 && f.opx < 2048

/-- Every J-format field is within its width (R89). -/
def JFields.wellFormed (f : JFields) : Bool :=
  f.op < 64 && f.imm26 < 67108864

/-- An instruction as the codec sees it: the fields of one format. -/
inductive RawInstr where
  | i (f : IFields)
  | r (f : RFields)
  | j (f : JFields)
deriving DecidableEq, Repr

/-- Every field of the format is within its width (R89). -/
def RawInstr.wellFormed : RawInstr → Bool
  | .i f => f.wellFormed
  | .r f => f.wellFormed
  | .j f => f.wellFormed

/-- The primary opcodes of a table (30_encoding R93, R96). -/
def OpcodeValues.primary (v : OpcodeValues) : List (BitVec 6) :=
  [ v.rType, v.call, v.ldbu, v.addi, v.stb, v.br, v.ldb, v.cmpgei, v.andi, v.bge, v.cmplti, v.ori, v.stw, v.blt,
    v.ldw, v.cmpnei, v.xori, v.bne, v.cmpeqi, v.beq, v.andhi, v.orhi, v.xorhi ]

/-- The extended opcodes of a table (30_encoding R97). -/
def OpcodeValues.extended (v : OpcodeValues) : List (BitVec 6) :=
  [ v.ret, v.nor, v.cmpge, v.and, v.cmplt, v.slli, v.sll, v.or, v.cmpne, v.srli, v.srl, v.xor, v.cmpeq, v.add,
    v.sub ]

/-- No two instructions of the table share an opcode, and no two R-format instructions share `OPX[10:5]`: at most one row
matches any word (30_encoding R95). -/
def OpcodeValues.wellFormed (v : OpcodeValues) : Bool :=
  decide v.primary.Nodup && decide v.extended.Nodup

/-- A program that a memory of `memSize` bytes can hold: the image fits (D11), it holds the text region (R127), and the
entry point is a multiple of 4 (R111, R274). -/
def Program.wellFormed (memSize : Nat) (p : Program) : Bool :=
  p.image.length ≤ memSize && 4 * p.instructionCount ≤ p.image.length && p.entryPoint.toNat % 4 == 0

end Sys2Proof
end

