-- ==== Sys2Proof/Decode.lean ====
section
/-! DEFINITION. The instruction codec (30_encoding sections 1 to 6): the fields of a word, the opcode tables R96 and R97,
dispatch (R94, R95), the numeric codec of R87 and R88, and the encoder of an instruction, written from the same tables. -/

namespace Sys2Proof

/-! ### Fields of a word (R80 to R86) -/

/-- `OP = w[5:0]` (R80). -/
def opOf (w : Word) : BitVec 6 := w.extractLsb' 0 6
/-- `A = w[31:27]` (R81, R83). -/
def aOf (w : Word) : RegIx := w.extractLsb' 27 5
/-- `B = w[26:22]` (R81, R83). -/
def bOf (w : Word) : RegIx := w.extractLsb' 22 5
/-- `C = w[21:17]` (R83). -/
def cOf (w : Word) : RegIx := w.extractLsb' 17 5
/-- `IMM16 = w[21:6]` (R82, C1, D2). -/
def imm16Of (w : Word) : BitVec 16 := w.extractLsb' 6 16
/-- `OPX = w[16:6]` (R83, D2). -/
def opxOf (w : Word) : BitVec 11 := w.extractLsb' 6 11
/-- `IMM5 = OPX[4:0] = w[10:6]` (R84). -/
def imm5Of (w : Word) : BitVec 5 := w.extractLsb' 6 5
/-- `IMM26 = w[31:6]` (R85, D3). -/
def imm26Of (w : Word) : BitVec 26 := w.extractLsb' 6 26

/-- The I-format word with these fields (R81). -/
def packI (a b : RegIx) (imm : BitVec 16) (op : BitVec 6) : Word := a ++ b ++ imm ++ op
/-- The R-format word with these fields (R83). -/
def packR (a b c : RegIx) (opx : BitVec 11) (op : BitVec 6) : Word := a ++ b ++ c ++ opx ++ op
/-- The J-format word with these fields (R85). -/
def packJ (imm : BitVec 26) (op : BitVec 6) : Word := imm ++ op

/-! ### The numeric codec (R87, R88) -/

/-- `encodeI` of R88: total, every field cut to its width. -/
def encodeI (f : IFields) : Word :=
  packI (BitVec.ofNat 5 f.a) (BitVec.ofNat 5 f.b) (BitVec.ofNat 16 f.imm16) (BitVec.ofNat 6 f.op)
/-- `encodeR` of R88. -/
def encodeR (f : RFields) : Word :=
  packR (BitVec.ofNat 5 f.a) (BitVec.ofNat 5 f.b) (BitVec.ofNat 5 f.c) (BitVec.ofNat 11 f.opx) (BitVec.ofNat 6 f.op)
/-- `encodeJ` of R88. -/
def encodeJ (f : JFields) : Word :=
  packJ (BitVec.ofNat 26 f.imm26) (BitVec.ofNat 6 f.op)

/-- `decodeI` of R87: the I-format view of any word. -/
def decodeI (w : Word) : IFields :=
  { op := (opOf w).toNat, a := (aOf w).toNat, b := (bOf w).toNat, imm16 := (imm16Of w).toNat }
/-- `decodeR` of R87. -/
def decodeR (w : Word) : RFields :=
  { op := (opOf w).toNat, a := (aOf w).toNat, b := (bOf w).toNat, c := (cOf w).toNat, opx := (opxOf w).toNat }
/-- `decodeJ` of R87. -/
def decodeJ (w : Word) : JFields :=
  { op := (opOf w).toNat, imm26 := (imm26Of w).toNat }

/-- The word of an instruction given as the codec's fields. -/
def RawInstr.encode : RawInstr → Word
  | .i f => encodeI f
  | .r f => encodeR f
  | .j f => encodeJ f

/-! ### Opcode values (R96, R97): the parameter OPCODE_VALUES of R8 -/

/-- The spec's default table, its decision D1, from general knowledge (PRESUMED, log 1): R96 with the R-format opcode of R93,
then R97. -/
def OpcodeValues.specDefault : OpcodeValues :=
  { rType := 0x3A
    call := 0x00
    ldbu := 0x03
    addi := 0x04
    stb := 0x05
    br := 0x06
    ldb := 0x07
    cmpgei := 0x08
    andi := 0x0C
    bge := 0x0E
    cmplti := 0x10
    ori := 0x14
    stw := 0x15
    blt := 0x16
    ldw := 0x17
    cmpnei := 0x18
    xori := 0x1C
    bne := 0x1E
    cmpeqi := 0x20
    beq := 0x26
    andhi := 0x2C
    orhi := 0x34
    xorhi := 0x3C
    ret := 0x05
    nor := 0x06
    cmpge := 0x08
    and := 0x0E
    cmplt := 0x10
    slli := 0x12
    sll := 0x13
    or := 0x16
    cmpne := 0x18
    srli := 0x1A
    srl := 0x1B
    xor := 0x1E
    cmpeq := 0x20
    add := 0x31
    sub := 0x39 }

/-- The 11-bit extended opcode of a 6-bit `OPX[10:5]` value: `OPX6 << 5` (R97, R99). -/
def opxOfSix (x : BitVec 6) : BitVec 11 := x ++ (0 : BitVec 5)

/-- The dispatch mask of `slli` and `srli`: the shift amount takes no part in selection (R95). -/
def opxShiftMask : BitVec 11 := 0x7E0
/-- The dispatch mask of every other R-format instruction (R95, D9). -/
def opxFullMask : BitVec 11 := 0x7FF

/-! ### The opcode map as tables, and dispatch (R94 to R97) -/

/-- A row of R96 in the I-format: its opcode, and the instruction of the fields B, A, IMM16 (roles by R91). -/
structure IRow where
  op : BitVec 6
  instr : (b a : RegIx) → (imm : BitVec 16) → Instr

/-- A row of R97: extended opcode, mask, and the instruction of the fields C, A, B, IMM5. -/
structure RRow where
  opx : BitVec 11
  mask : BitVec 11
  instr : (c a b : RegIx) → (imm5 : BitVec 5) → Instr

/-- The I-format rows of R96. -/
def iRows (v : OpcodeValues) : List IRow :=
  [ ⟨v.ldbu, fun b a imm => .ldbu b imm a⟩,
    ⟨v.addi, fun b a imm => .addi b a imm⟩,
    ⟨v.stb, fun b a imm => .stb b imm a⟩,
    ⟨v.br, fun _ _ imm => .br imm⟩,
    ⟨v.ldb, fun b a imm => .ldb b imm a⟩,
    ⟨v.cmpgei, fun b a imm => .cmpgei b a imm⟩,
    ⟨v.andi, fun b a imm => .andi b a imm⟩,
    ⟨v.bge, fun b a imm => .bge a b imm⟩,
    ⟨v.cmplti, fun b a imm => .cmplti b a imm⟩,
    ⟨v.ori, fun b a imm => .ori b a imm⟩,
    ⟨v.stw, fun b a imm => .stw b imm a⟩,
    ⟨v.blt, fun b a imm => .blt a b imm⟩,
    ⟨v.ldw, fun b a imm => .ldw b imm a⟩,
    ⟨v.cmpnei, fun b a imm => .cmpnei b a imm⟩,
    ⟨v.xori, fun b a imm => .xori b a imm⟩,
    ⟨v.bne, fun b a imm => .bne a b imm⟩,
    ⟨v.cmpeqi, fun b a imm => .cmpeqi b a imm⟩,
    ⟨v.beq, fun b a imm => .beq a b imm⟩,
    ⟨v.andhi, fun b a imm => .andhi b a imm⟩,
    ⟨v.orhi, fun b a imm => .orhi b a imm⟩,
    ⟨v.xorhi, fun b a imm => .xorhi b a imm⟩ ]

/-- The rows of R97. -/
def rRows (v : OpcodeValues) : List RRow :=
  [ ⟨opxOfSix v.ret, opxFullMask, fun _ _ _ _ => .ret⟩,
    ⟨opxOfSix v.nor, opxFullMask, fun c a b _ => .nor c a b⟩,
    ⟨opxOfSix v.cmpge, opxFullMask, fun c a b _ => .cmpge c a b⟩,
    ⟨opxOfSix v.and, opxFullMask, fun c a b _ => .and c a b⟩,
    ⟨opxOfSix v.cmplt, opxFullMask, fun c a b _ => .cmplt c a b⟩,
    ⟨opxOfSix v.slli, opxShiftMask, fun c a _ n => .slli c a n⟩,
    ⟨opxOfSix v.sll, opxFullMask, fun c a b _ => .sll c a b⟩,
    ⟨opxOfSix v.or, opxFullMask, fun c a b _ => .or c a b⟩,
    ⟨opxOfSix v.cmpne, opxFullMask, fun c a b _ => .cmpne c a b⟩,
    ⟨opxOfSix v.srli, opxShiftMask, fun c a _ n => .srli c a n⟩,
    ⟨opxOfSix v.srl, opxFullMask, fun c a b _ => .srl c a b⟩,
    ⟨opxOfSix v.xor, opxFullMask, fun c a b _ => .xor c a b⟩,
    ⟨opxOfSix v.cmpeq, opxFullMask, fun c a b _ => .cmpeq c a b⟩,
    ⟨opxOfSix v.add, opxFullMask, fun c a b _ => .add c a b⟩,
    ⟨opxOfSix v.sub, opxFullMask, fun c a b _ => .sub c a b⟩ ]

/-- The row matches this extended opcode under its mask (R94). -/
def RRow.accepts (r : RRow) (opx : BitVec 11) : Bool := opx &&& r.mask == r.opx

/-- Why bytes are no instruction of this core. -/
inductive DecodeError where
  /-- the opcode has no row in R96 (R105) -/
  | unknownOpcode (op : BitVec 6)
  /-- the R-format extended opcode has no row in R97 under its mask (R95, R105) -/
  | unknownOpx (opx : BitVec 11)
  /-- fewer than the four bytes of an instruction (R80) -/
  | truncated
deriving DecidableEq, Repr

/-- Dispatch of R94 by a table of opcode values: the instruction of a word, or the name of what is unknown in it. In a table
that is not well-formed (WellFormed.lean), for which the spec states no dispatch, the first row that matches is taken
(DESIGN CHOICE, log 1). -/
def decodeWord (v : OpcodeValues) (w : Word) : Except DecodeError Instr :=
  if opOf w = v.rType then
    match (rRows v).find? (fun r => r.accepts (opxOf w)) with
    | some r => .ok (r.instr (cOf w) (aOf w) (bOf w) (imm5Of w))
    | none => .error (.unknownOpx (opxOf w))
  else if opOf w = v.call then
    .ok (.call (imm26Of w))
  else
    match (iRows v).find? (fun r => r.op == opOf w) with
    | some r => .ok (r.instr (bOf w) (aOf w) (imm16Of w))
    | none => .error (.unknownOpcode (opOf w))

/-- The word whose bytes, lowest address first, are these (little-endian, R52, R55). -/
def wordOfBytes (b0 b1 b2 b3 : Byte) : Word := b3 ++ b2 ++ b1 ++ b0

/-- Byte `k` of a word: bits `8k+7:8k` (R53). -/
def byteOfWord (v : Word) (k : Nat) : Byte := v.extractLsb' (8 * k) 8

/-- Decoding of bytes as memory holds them, with the bytes after the instruction. -/
def decode (v : OpcodeValues) : List Byte → Except DecodeError (Instr × List Byte)
  | b0 :: b1 :: b2 :: b3 :: rest => (decodeWord v (wordOfBytes b0 b1 b2 b3)).map (fun i => (i, rest))
  | _ => .error .truncated

/-! ### The encoder -/

/-- The fields of an R-format instruction of three registers (R83, R97). -/
def rawR (rType : BitVec 6) (opx : BitVec 11) (c a b : RegIx) : RawInstr :=
  .r { op := rType.toNat, a := a.toNat, b := b.toNat, c := c.toNat, opx := opx.toNat }
/-- The fields of a shift-immediate: the amount stands in `OPX[4:0]`, `B` is 0 (R84, R92). -/
def rawShift (rType : BitVec 6) (opx : BitVec 11) (c a : RegIx) (n : BitVec 5) : RawInstr :=
  rawR rType (opx ||| n.setWidth 11) c a 0
/-- The fields of an I-format instruction (R81, R96). -/
def rawI (op : BitVec 6) (b a : RegIx) (imm : BitVec 16) : RawInstr :=
  .i { op := op.toNat, a := a.toNat, b := b.toNat, imm16 := imm.toNat }
/-- The fields of a J-format instruction (R85, R96). -/
def rawJ (op : BitVec 6) (imm : BitVec 26) : RawInstr :=
  .j { op := op.toNat, imm26 := imm.toNat }

/-- The fields each instruction is encoded from: the rows of R96 and R97 with the roles of R91; unused fields as the
assembler writes them, 0, and `A = 31` in `ret` (R92, R119). -/
def Instr.raw (v : OpcodeValues) : Instr → RawInstr
  | .add c a b => rawR v.rType (opxOfSix v.add) c a b
  | .sub c a b => rawR v.rType (opxOfSix v.sub) c a b
  | .and c a b => rawR v.rType (opxOfSix v.and) c a b
  | .or c a b => rawR v.rType (opxOfSix v.or) c a b
  | .xor c a b => rawR v.rType (opxOfSix v.xor) c a b
  | .nor c a b => rawR v.rType (opxOfSix v.nor) c a b
  | .addi b a imm => rawI v.addi b a imm
  | .andi b a imm => rawI v.andi b a imm
  | .andhi b a imm => rawI v.andhi b a imm
  | .ori b a imm => rawI v.ori b a imm
  | .orhi b a imm => rawI v.orhi b a imm
  | .xori b a imm => rawI v.xori b a imm
  | .xorhi b a imm => rawI v.xorhi b a imm
  | .sll c a b => rawR v.rType (opxOfSix v.sll) c a b
  | .srl c a b => rawR v.rType (opxOfSix v.srl) c a b
  | .slli c a n => rawShift v.rType (opxOfSix v.slli) c a n
  | .srli c a n => rawShift v.rType (opxOfSix v.srli) c a n
  | .cmpeq c a b => rawR v.rType (opxOfSix v.cmpeq) c a b
  | .cmpne c a b => rawR v.rType (opxOfSix v.cmpne) c a b
  | .cmpge c a b => rawR v.rType (opxOfSix v.cmpge) c a b
  | .cmplt c a b => rawR v.rType (opxOfSix v.cmplt) c a b
  | .cmpeqi b a imm => rawI v.cmpeqi b a imm
  | .cmpnei b a imm => rawI v.cmpnei b a imm
  | .cmpgei b a imm => rawI v.cmpgei b a imm
  | .cmplti b a imm => rawI v.cmplti b a imm
  | .br imm => rawI v.br 0 0 imm
  | .beq a b imm => rawI v.beq b a imm
  | .bne a b imm => rawI v.bne b a imm
  | .bge a b imm => rawI v.bge b a imm
  | .blt a b imm => rawI v.blt b a imm
  | .call imm => rawJ v.call imm
  | .ret => rawR v.rType (opxOfSix v.ret) 0 31 0
  | .ldw b imm a => rawI v.ldw b a imm
  | .stw b imm a => rawI v.stw b a imm
  | .ldb b imm a => rawI v.ldb b a imm
  | .ldbu b imm a => rawI v.ldbu b a imm
  | .stb b imm a => rawI v.stb b a imm

/-- The word of an instruction: its fields through the numeric codec (R88, R99). -/
def encode (v : OpcodeValues) (i : Instr) : Word := (i.raw v).encode

/-- The bytes of an instruction, lowest address first (R55). -/
def encodeBytes (v : OpcodeValues) (i : Instr) : List Byte :=
  [byteOfWord (encode v i) 0, byteOfWord (encode v i) 1, byteOfWord (encode v i) 2, byteOfWord (encode v i) 3]

/-- An instruction is well-formed when every field it is encoded from is within its width (R89). -/
def Instr.wellFormed (v : OpcodeValues) (i : Instr) : Bool := (i.raw v).wellFormed

/-! ### The host's view of the table -/

/-- What this decoder, with the spec's default table, reads from an instruction whose bits are `w`, bit 0 the least significant bit of the first byte, every
bit at and above `nbits` being 0. -/
def decodeTableWord (nbits w : Nat) : Option Instr :=
  let u := BitVec.ofNat 32 (w % 2 ^ nbits)
  match decode OpcodeValues.specDefault [byteOfWord u 0, byteOfWord u 1, byteOfWord u 2, byteOfWord u 3] with
  | .ok (i, _) => some i
  | .error _ => none

end Sys2Proof
end

