-- ==== Sys2Proof/Machine/Memory.lean ====
section
/-! DEFINITION. The named operations on memory as data (20_memory): one byte, and the little-endian widths built from it.
The canonical form of the list is `Memory.wf`. -/

namespace Sys2Proof.Machine

/-- What a byte nothing has written reads as: DESIGN CHOICE 0, unsafe (MEM_INIT is a draw, R61, D15; log 14). -/
def Memory.unlisted : Byte := 0

/-- The byte at an address. -/
def Memory.read : Memory → Nat → Byte
  | [], _ => Memory.unlisted
  | (k, v) :: t, a => if a = k then v else Memory.read t a

/-- The list without its cells at an address. -/
def Memory.erase : Memory → Nat → Memory
  | [], _ => []
  | (k, v) :: t, a => if a = k then Memory.erase t a else (k, v) :: Memory.erase t a

/-- A cell put before the first cell of a higher address. -/
def Memory.insert : Memory → Nat → Byte → Memory
  | [], a, v => [(a, v)]
  | (k, w) :: t, a, v => if a < k then (a, v) :: (k, w) :: t else (k, w) :: Memory.insert t a v

/-- One byte written. The canonical form is kept: a byte equal to what an unlisted address reads as is not listed. -/
def Memory.write (m : Memory) (a : Nat) (v : Byte) : Memory :=
  if v = Memory.unlisted then Memory.erase m a else Memory.insert (Memory.erase m a) a v

/-- The cells stand at rising addresses from `lo` on, and none holds what an unlisted address reads as. -/
def Memory.wfFrom : Nat → Memory → Bool
  | _, [] => true
  | lo, (k, v) :: t => decide (lo ≤ k) && decide (v ≠ Memory.unlisted) && Memory.wfFrom (k + 1) t

/-- The canonical form: addresses strictly rising, no entry equal to what an unlisted address reads as. -/
def Memory.wf (m : Memory) : Bool := Memory.wfFrom 0 m

/-- Every listed byte is inside a memory of `size` bytes (R50). -/
def Memory.within (size : Nat) (m : Memory) : Bool := m.all (fun c => decide (c.1 < size))

/-- The width of a data access (R51: there are no halfword accesses). -/
inductive Width where
  | byte
  | word
deriving DecidableEq, Repr

/-- How many bytes an access of a width moves. -/
def Width.bytes : Width → Nat
  | .byte => 1
  | .word => 4

/-- `MemRead(a, 4)` without its range check: `mem[a+3] ++ mem[a+2] ++ mem[a+1] ++ mem[a]` (R52). -/
def Memory.readWord (m : Memory) (a : Nat) : Word :=
  wordOfBytes (Memory.read m a) (Memory.read m (a + 1)) (Memory.read m (a + 2)) (Memory.read m (a + 3))

/-- `MemRead(a, n)` without its range check, zero-extended (R52). -/
def Memory.readWidth (m : Memory) (a : Nat) : Width → Word
  | .byte => (Memory.read m a).setWidth 32
  | .word => Memory.readWord m a

/-- `MemWrite(a, 4, v)` without its range check (R53). -/
def Memory.writeWord (m : Memory) (a : Nat) (v : Word) : Memory :=
  Memory.write (Memory.write (Memory.write (Memory.write m a (byteOfWord v 0))
    (a + 1) (byteOfWord v 1)) (a + 2) (byteOfWord v 2)) (a + 3) (byteOfWord v 3)

/-- `MemWrite(a, n, v)` without its range check (R53). -/
def Memory.writeWidth (m : Memory) (a : Nat) (v : Word) : Width → Memory
  | .byte => Memory.write m a (byteOfWord v 0)
  | .word => Memory.writeWord m a v

/-- Bytes written from an address on, those outside a memory of `size` bytes dropped (R271). -/
def Memory.writeBytes (size : Nat) : Memory → Nat → List Byte → Memory
  | m, _, [] => m
  | m, a, v :: t =>
    Memory.writeBytes size (if a < size then Memory.write m a v else m) (a + 1) t

/-- The memory of `size` bytes that arbitrary cells describe (the earlier cell wins), in canonical form: every memory is one
of these (Laws/Memory.lean). -/
def Memory.ofCells (size : Nat) : List Host.Cell → Memory
  | [] => []
  | (a, v) :: t =>
    if a < size then Memory.write (Memory.ofCells size t) a v else Memory.ofCells size t

end Sys2Proof.Machine
end

