-- ==== Sys2Proof/Machine/Operands.lean ====
section
/-! DEFINITION. Every operand form: immediates (30_encoding R90, R98), shift amounts (40_alu R160), effective addresses
(43_loadstore R220), branch and call targets (42_control R190, R197). Which form an instruction takes is the spec's
decision D5 from general knowledge (log 4). -/

namespace Sys2Proof.Machine

/-- `simm = sext_16(IMM16)` (R12, R90). -/
def simm (imm : BitVec 16) : Word := imm.signExtend 32

/-- `uimm = zext_16(IMM16)` (R12, R90). -/
def uimm (imm : BitVec 16) : Word := imm.setWidth 32

/-- `IMM16 ++ 0x0000`: the immediate in the high half (R98). -/
def himm (imm : BitVec 16) : Word := imm ++ (0 : BitVec 16)

/-- The amount of a register shift: `x[B][4:0]` (R160, D6, log 5). -/
def shiftAmount (v : Word) : Nat := (v.extractLsb' 0 5).toNat

/-- `ea = x[A] + sext_16(IMM16)` modulo 2^32 (R220, R68). -/
def effectiveAddress (base : Word) (imm : BitVec 16) : Word := base + simm imm

/-- `pc + sext_16(IMM16)` with the post-increment pc (R190). -/
def branchTarget (pc : Word) (imm : BitVec 16) : Word := pc + simm imm

/-- `(pc & 0xF0000000) | (zext_26(IMM26) << 2)` with the post-increment pc (R197, D20, log 18). -/
def callTarget (pc : Word) (imm26 : BitVec 26) : Word :=
  (pc &&& 0xF0000000) ||| (imm26.setWidth 32 <<< 2)

/-- `addr[1:0] != 0`: not a multiple of 4 (R56, R191). -/
def misaligned (a : Word) : Bool := a.extractLsb' 0 2 != 0

/-- The index of the return-address register (RA_INDEX of 00_scope R8, D7, log 6). -/
def raIndex : RegIx := 31

end Sys2Proof.Machine
end

