-- ==== Sys2Proof/Machine/Params.lean ====
section
/-! DEFINITION. The parameter values of the machine at reset (00_scope R8). -/

namespace Sys2Proof.Machine

/-- The parameters `State.reset` holds. UNKNOWN_POLICY, BRANCH_ALIGN_CHECK and OPCODE_VALUES are the spec's decided defaults (R105,
R191, R96; logs 9, 19, 1). HALT_CMP is open: a free value (log 17). MEM_SIZE is open: DESIGN CHOICE 4096, unsafe (log 10); no other
definition rests on that number, since every operation reads the state's own parameter. -/
def Params.atReset : Params :=
  { memSize := 4096
    haltCmp := Config.haltCmp
    unknownPolicy := .skip
    branchAlignCheck := .always
    opcodes := OpcodeValues.specDefault }

end Sys2Proof.Machine
end

