-- ==== Sys2Proof/Machine/State.lean ====
section
/-! DEFINITION. The machine's state as plain data (10_state R35 and what 60_exceptions and 70_reset_and_hazards add to it),
its reset value (70 R270), and the reasons a step can stop. -/

namespace Sys2Proof.Machine

/-- Who raised a fault: the mnemonic of the instruction, or "fetch" (60_exceptions R241, R242). -/
inductive FaultSite where
  | fetch | br | beq | bne | bge | blt | ret | ldw | stw | ldb | ldbu | stb
deriving DecidableEq, Repr

/-- The spelling of the `name` field of a fault record (R240, R242). -/
def FaultSite.name : FaultSite → String
  | .fetch => "fetch"
  | .br => "br"
  | .beq => "beq"
  | .bne => "bne"
  | .bge => "bge"
  | .blt => "blt"
  | .ret => "ret"
  | .ldw => "ldw"
  | .stw => "stw"
  | .ldb => "ldb"
  | .ldbu => "ldbu"
  | .stb => "stb"

/-- The record of a runtime fault, which the host receives (R240, R242, R243). -/
inductive FaultRecord where
  | misalignedAddress (site : FaultSite) (pc addr : Word)
  | outOfRange (site : FaultSite) (pc addr : Word)
  | unknownInstruction (pc word : Word)
deriving DecidableEq, Repr

/-- The run status (10_state R34). -/
inductive RunStatus where
  | running
  | halted
  | faulted (r : FaultRecord)
deriving DecidableEq, Repr

/-- An event of the unknown-instruction log: the word's own address and the word (10_state R33, 90 C9). -/
structure UnknownEvent where
  addr : Word
  word : Word
deriving DecidableEq, Repr

/-- An entry of SYSCALLS: name, reserved address, and the number of the host action bound to it (60_exceptions R252). What
the action does is a free value (`Config.syscallAction`). -/
structure SyscallEntry where
  name : String
  address : Word
  action : Nat
deriving DecidableEq, Repr

/-- The machine (R35). -/
structure State where
  /-- the register file (R20); slot 0 is storage only: `State.reg` reads `r0` as 0 whatever it holds (R21) -/
  regs : Vector Word 32
  /-- the program counter (R25) -/
  pc : Word
  /-- the instruction register (R29) -/
  ir : Word
  /-- the byte memory (20_memory R50) -/
  mem : Memory
  /-- the run status (R34) -/
  status : RunStatus
  /-- the unknown-instruction log, oldest event first (R33) -/
  log : List UnknownEvent
  /-- SYSCALLS, the newest entry first (R33, R288) -/
  syscalls : List SyscallEntry
  /-- the program last loaded: what `run` and `restartProgram` start, and PROGRAM_END (R271, R272, R275) -/
  program : Program
  /-- the parameters of R8 that the core reads -/
  par : Params
  /-- host-visible outputs of system-call actions, oldest first (R253) -/
  out : List Nat
  /-- the model's own: how many system-call actions have run (index of the free value `Config.syscallAction`) -/
  draws : Nat
deriving DecidableEq, Repr

/-- The machine after VM construction with these parameters and these memory contents (70 R270). -/
def State.construct (par : Params) (mem : Memory) : State :=
  { regs := Vector.replicate 32 0
    pc := 0
    ir := 0
    mem := mem
    status := .halted
    log := []
    syscalls := []
    program := { image := [], instructionCount := 0, entryPoint := 0 }
    par := par
    out := []
    draws := 0 }

/-- The machine right after reset: VM construction with nothing loaded (R270). Memory lists nothing (MEM_INIT: log 14). -/
def State.reset : State := State.construct Params.atReset []

/-- Why the machine stops. -/
inductive Fault where
  /-- Raised by `step` alone, in a state whose status is `Faulted(record)`: the run has ended and the host receives the
  record (60_exceptions R246, R249). No instruction's meaning answers it: a fault an instruction raises is a next state
  with that status (`State.raise`, R244). Safe: the machine does nothing more, as the spec says (log 21). -/
  | aborted (r : FaultRecord)
deriving DecidableEq, Repr

/-- Why the model gives an instruction no meaning. -/
inductive Refusal where
  /-- Raised by an arm of `exec` for an instruction not modelled yet; no arm raises it now. Safe. -/
  | notModelled (mnemonic : String)
deriving DecidableEq, Repr

/-- The outcome of an instruction or a step. -/
abbrev Result := Host.Outcome State Fault Refusal

end Sys2Proof.Machine
end

