-- ==== Sys2Proof/Machine/Ops.lean ====
section
/-! DEFINITION. The shared operations over the state: registers, range and alignment checks, raising a fault, the control
transfers, loads and stores, the system call, the fetch and the unknown instruction. -/

namespace Sys2Proof.Machine

/-! ### Registers (10_state R20, R21; 00_scope R11) -/

/-- `x[i]`: register `r0` reads 0. -/
def State.reg (s : State) (i : RegIx) : Word :=
  if i = 0 then 0 else s.regs[i.toNat]'(i.isLt)

/-- `x[i] <- v`: a write of `r0` is discarded. -/
def State.setReg (s : State) (i : RegIx) (v : Word) : State :=
  if i = 0 then s else { s with regs := s.regs.set i.toNat v i.isLt }

/-- A write of `pc`. -/
def State.jump (s : State) (t : Word) : State := { s with pc := t }

/-! ### Taking a fault (60_exceptions section 2) -/

/-- TAKING A FAULT: the one operation every fault goes through. The status becomes `Faulted(record)` and nothing else
changes: an instruction's fault leaves the registers, the memory, `IR` and the post-increment `pc` as the fetch left them,
a fetch's fault leaves `pc` and `IR` too (R244). There is no vector, no saved register and no mode to change (R246).
RETURNING FROM A FAULT: the core has no such operation (R249); only the host's `State.loadProgram` and
`State.restartProgram` (Machine/HostIface.lean) leave a `Faulted` state. -/
def State.raise (s : State) (r : FaultRecord) : State := { s with status := .faulted r }

/-! ### Memory access (20_memory) -/

/-- An access of `n` bytes at `a` is in range: `unsigned(a) + n <= MEM_SIZE`, no wrap (R54). -/
def State.inRange (s : State) (a : Word) (n : Nat) : Bool := decide (a.toNat + n ≤ s.par.memSize)

/-- The fault of a data access, if any: misalignment of a word first, then range (R56, R54, R247). All checks come before
any byte moves (R59). -/
def State.accessFault (s : State) (site : FaultSite) (w : Width) (a : Word) : Option FaultRecord :=
  if w = .word ∧ misaligned a = true then some (.misalignedAddress site s.pc a)
  else if s.inRange a w.bytes = true then none
  else some (.outOfRange site s.pc a)

/-- A load: the fault of the access, or the value read, extended by `ext`, into register `b` (43_loadstore). -/
def State.load (s : State) (site : FaultSite) (w : Width) (ext : Word → Word) (b : RegIx) (a : Word) : Result :=
  match s.accessFault site w a with
  | some r => .next (s.raise r)
  | none => .next (s.setReg b (ext (Memory.readWidth s.mem a.toNat w)))

/-- A store: the fault of the access with no byte written, or the low bytes of `v` in memory (43_loadstore, R53). -/
def State.store (s : State) (site : FaultSite) (w : Width) (a v : Word) : Result :=
  match s.accessFault site w a with
  | some r => .next (s.raise r)
  | none => .next { s with mem := Memory.writeWidth s.mem a.toNat v w }

/-! ### Control transfer (42_control) -/

/-- `branch(name, cond)` of R191. -/
def State.branch (s : State) (site : FaultSite) (cond : Bool) (imm : BitVec 16) : Result :=
  if misaligned (branchTarget s.pc imm) = true ∧ (s.par.branchAlignCheck = .always ∨ cond = true) then
    .next (s.raise (.misalignedAddress site s.pc (branchTarget s.pc imm)))
  else if cond = true then .next (s.jump (branchTarget s.pc imm))
  else .next s

/-- The SYSCALLS entry bound to an address, if any; the newest wins (60_exceptions R252, log 24). -/
def State.syscallAt (s : State) (t : Word) : Option SyscallEntry :=
  s.syscalls.find? (fun e => e.address == t)

/-- What a host action leaves (R253): arbitrary registers and memory but for `x[0] = 0` and the memory array's size, its
outputs appended, one draw used; nothing else changes, `pc` least of all (C8). -/
def State.applySyscall (s : State) (e : SyscallEffect) : State :=
  { s with
    regs := e.regs.set 0 0
    mem := Memory.ofCells s.par.memSize e.cells
    out := s.out ++ e.out
    draws := s.draws + 1 }

/-- The host action of an entry, run to completion inside the `call` (R198, R253). Its effect is a free value (log 23). -/
def State.runSyscall (s : State) (e : SyscallEntry) : State :=
  s.applySyscall (Config.syscallAction e.action s.draws s.regs s.mem)

/-! ### Fetch and unknown instructions -/

/-- `fetch()` (70 R277): `IR <- MemRead(pc, 4); pc <- pc + 4`, or `OutOfRange("fetch", pc, pc)` with nothing changed
(20_memory R57). -/
def State.fetch (s : State) : Except FaultRecord State :=
  if s.inRange s.pc 4 = true then
    .ok { s with ir := Memory.readWord s.mem s.pc.toNat, pc := s.pc + 4 }
  else .error (.outOfRange .fetch s.pc s.pc)

/-- A word with no handler (30_encoding R105, 60_exceptions R243): logged with its own address, or faulted. -/
def State.unknown (s : State) : Result :=
  match s.par.unknownPolicy with
  | .skip => .next { s with log := s.log ++ [{ addr := s.pc - 4, word := s.ir }] }
  | .fault => .next (s.raise (.unknownInstruction s.pc s.ir))

/-! ### The run loop's test (70 R275) -/

/-- PROGRAM_END: `4 * instructionCount` of the loaded program (R8, D19). -/
def State.programEnd (s : State) : Nat := 4 * s.program.instructionCount

/-- `halted(pc)` of R275. HALT_CMP is read only where its two values differ, above the end address (R276). -/
def State.atEnd (s : State) : Bool :=
  if s.pc.toNat = s.programEnd then true
  else if s.pc.toNat < s.programEnd then false
  else decide (s.par.haltCmp = .ge)

end Sys2Proof.Machine
end

