-- ==== Sys2Proof/Machine/Alu.lean ====
section
/-! DEFINITION. Arithmetic, logic and shift instructions (40_alu): one meaning per instruction, run after the fetch (10_state R26).
Each reads its sources before it writes its destination (R140); none touches memory or `pc`, none faults. -/

namespace Sys2Proof.Machine

/-- `add rC, rA, rB` (R141): modulo 2^32, no overflow trap (R158). -/
def execAdd (c a b : RegIx) (s : State) : Result :=
  .next (s.setReg c (s.reg a + s.reg b))

/-- `sub rC, rA, rB` (R142). -/
def execSub (c a b : RegIx) (s : State) : Result :=
  .next (s.setReg c (s.reg a - s.reg b))

/-- `and rC, rA, rB` (R143). -/
def execAnd (c a b : RegIx) (s : State) : Result :=
  .next (s.setReg c (s.reg a &&& s.reg b))

/-- `or rC, rA, rB` (R144). -/
def execOr (c a b : RegIx) (s : State) : Result :=
  .next (s.setReg c (s.reg a ||| s.reg b))

/-- `xor rC, rA, rB` (R145). -/
def execXor (c a b : RegIx) (s : State) : Result :=
  .next (s.setReg c (s.reg a ^^^ s.reg b))

/-- `nor rC, rA, rB` (R146). -/
def execNor (c a b : RegIx) (s : State) : Result :=
  .next (s.setReg c (~~~(s.reg a ||| s.reg b)))

/-- `addi rB, rA, imm16` (R147): the immediate sign-extended (D5). -/
def execAddi (b a : RegIx) (imm : BitVec 16) (s : State) : Result :=
  .next (s.setReg b (s.reg a + simm imm))

/-- `andi rB, rA, imm16` (R148): the immediate zero-extended (D5). -/
def execAndi (b a : RegIx) (imm : BitVec 16) (s : State) : Result :=
  .next (s.setReg b (s.reg a &&& uimm imm))

/-- `andhi rB, rA, imm16` (R149): the immediate in the high half (D5). -/
def execAndhi (b a : RegIx) (imm : BitVec 16) (s : State) : Result :=
  .next (s.setReg b (s.reg a &&& himm imm))

/-- `ori rB, rA, imm16` (R150). -/
def execOri (b a : RegIx) (imm : BitVec 16) (s : State) : Result :=
  .next (s.setReg b (s.reg a ||| uimm imm))

/-- `orhi rB, rA, imm16` (R151). -/
def execOrhi (b a : RegIx) (imm : BitVec 16) (s : State) : Result :=
  .next (s.setReg b (s.reg a ||| himm imm))

/-- `xori rB, rA, imm16` (R152). -/
def execXori (b a : RegIx) (imm : BitVec 16) (s : State) : Result :=
  .next (s.setReg b (s.reg a ^^^ uimm imm))

/-- `xorhi rB, rA, imm16` (R153). -/
def execXorhi (b a : RegIx) (imm : BitVec 16) (s : State) : Result :=
  .next (s.setReg b (s.reg a ^^^ himm imm))

/-- `sll rC, rA, rB` (R154): by the low five bits of `x[B]` (R160, D6). -/
def execSll (c a b : RegIx) (s : State) : Result :=
  .next (s.setReg c (s.reg a <<< shiftAmount (s.reg b)))

/-- `srl rC, rA, rB` (R155): logical, by the low five bits of `x[B]` (R160, D6). -/
def execSrl (c a b : RegIx) (s : State) : Result :=
  .next (s.setReg c (s.reg a >>> shiftAmount (s.reg b)))

/-- `slli rC, rA, imm5` (R156). -/
def execSlli (c a : RegIx) (imm5 : BitVec 5) (s : State) : Result :=
  .next (s.setReg c (s.reg a <<< imm5.toNat))

/-- `srli rC, rA, imm5` (R157): logical. -/
def execSrli (c a : RegIx) (imm5 : BitVec 5) (s : State) : Result :=
  .next (s.setReg c (s.reg a >>> imm5.toNat))

end Sys2Proof.Machine
end

