-- ==== Sys2Proof/Machine/Compare.lean ====
section
/-! DEFINITION. Compare instructions (41_compare): each writes 1 or 0 into its destination. None touches memory or `pc`, none
faults. The immediate forms compare with the sign-extended immediate (D5). -/

namespace Sys2Proof.Machine

/-- `cmpeq rC, rA, rB` (R170). -/
def execCmpeq (c a b : RegIx) (s : State) : Result :=
  .next (s.setReg c (boolWord (s.reg a == s.reg b)))

/-- `cmpne rC, rA, rB` (R171). -/
def execCmpne (c a b : RegIx) (s : State) : Result :=
  .next (s.setReg c (boolWord (s.reg a != s.reg b)))

/-- `cmpge rC, rA, rB` (R172): signed. -/
def execCmpge (c a b : RegIx) (s : State) : Result :=
  .next (s.setReg c (boolWord (geSigned (s.reg a) (s.reg b))))

/-- `cmplt rC, rA, rB` (R173): signed. -/
def execCmplt (c a b : RegIx) (s : State) : Result :=
  .next (s.setReg c (boolWord (ltSigned (s.reg a) (s.reg b))))

/-- `cmpeqi rB, rA, imm16` (R174). -/
def execCmpeqi (b a : RegIx) (imm : BitVec 16) (s : State) : Result :=
  .next (s.setReg b (boolWord (s.reg a == simm imm)))

/-- `cmpnei rB, rA, imm16` (R175). -/
def execCmpnei (b a : RegIx) (imm : BitVec 16) (s : State) : Result :=
  .next (s.setReg b (boolWord (s.reg a != simm imm)))

/-- `cmpgei rB, rA, imm16` (R176): signed. -/
def execCmpgei (b a : RegIx) (imm : BitVec 16) (s : State) : Result :=
  .next (s.setReg b (boolWord (geSigned (s.reg a) (simm imm))))

/-- `cmplti rB, rA, imm16` (R177): signed. -/
def execCmplti (b a : RegIx) (imm : BitVec 16) (s : State) : Result :=
  .next (s.setReg b (boolWord (ltSigned (s.reg a) (simm imm))))

end Sys2Proof.Machine
end

