-- ==== Sys2Proof/Machine/Control.lean ====
section
/-! DEFINITION. Control transfer (42_control), run after the fetch: `pc` holds the instruction's own address + 4 (10_state R26).
There is no delay slot (R200). -/

namespace Sys2Proof.Machine

/-- `br target` (R192): unconditional. -/
def execBr (imm : BitVec 16) (s : State) : Result :=
  s.branch .br true imm

/-- `beq rA, rB, target` (R193). -/
def execBeq (a b : RegIx) (imm : BitVec 16) (s : State) : Result :=
  s.branch .beq (s.reg a == s.reg b) imm

/-- `bne rA, rB, target` (R194). -/
def execBne (a b : RegIx) (imm : BitVec 16) (s : State) : Result :=
  s.branch .bne (s.reg a != s.reg b) imm

/-- `bge rA, rB, target` (R195): signed. -/
def execBge (a b : RegIx) (imm : BitVec 16) (s : State) : Result :=
  s.branch .bge (geSigned (s.reg a) (s.reg b)) imm

/-- `blt rA, rB, target` (R196): signed. -/
def execBlt (a b : RegIx) (imm : BitVec 16) (s : State) : Result :=
  s.branch .blt (ltSigned (s.reg a) (s.reg b)) imm

/-- `call target` (R197): the post-increment pc into `r31`, then the target; a target bound in SYSCALLS runs the host action
instead, and `pc` stays at the return address (R198). The target is a multiple of 4, so there is no fault. -/
def execCall (imm26 : BitVec 26) (s : State) : Result :=
  match s.syscallAt (callTarget s.pc imm26) with
  | some e => .next ((s.setReg raIndex s.pc).runSyscall e)
  | none => .next ((s.setReg raIndex s.pc).jump (callTarget s.pc imm26))

/-- `ret` (R199): `r31` into `pc`, checked like every jump target (D22, 90 C2). -/
def execRet (s : State) : Result :=
  if misaligned (s.reg raIndex) = true then .next (s.raise (.misalignedAddress .ret s.pc (s.reg raIndex)))
  else .next (s.jump (s.reg raIndex))

end Sys2Proof.Machine
end

