-- ==== Sys2Proof/Machine/LoadStore.lean ====
section
/-! DEFINITION. Loads and stores (43_loadstore): base plus signed displacement (R220), one access of one width each (R226). -/

namespace Sys2Proof.Machine

/-- `ldw rB, imm16(rA)` (R221). -/
def execLdw (b : RegIx) (imm : BitVec 16) (a : RegIx) (s : State) : Result :=
  s.load .ldw .word id b (effectiveAddress (s.reg a) imm)

/-- `stw rB, imm16(rA)` (R222). -/
def execStw (b : RegIx) (imm : BitVec 16) (a : RegIx) (s : State) : Result :=
  s.store .stw .word (effectiveAddress (s.reg a) imm) (s.reg b)

/-- `ldb rB, imm16(rA)` (R223): sign-extended. -/
def execLdb (b : RegIx) (imm : BitVec 16) (a : RegIx) (s : State) : Result :=
  s.load .ldb .byte sext8 b (effectiveAddress (s.reg a) imm)

/-- `ldbu rB, imm16(rA)` (R224): zero-extended. -/
def execLdbu (b : RegIx) (imm : BitVec 16) (a : RegIx) (s : State) : Result :=
  s.load .ldbu .byte zext8 b (effectiveAddress (s.reg a) imm)

/-- `stb rB, imm16(rA)` (R225): the low byte of `x[B]`. -/
def execStb (b : RegIx) (imm : BitVec 16) (a : RegIx) (s : State) : Result :=
  s.store .stb .byte (effectiveAddress (s.reg a) imm) (s.reg b)

end Sys2Proof.Machine
end

