-- ==== Sys2Proof/Machine/Dispatch.lean ====
section
/-! DEFINITION. Dispatch of a decoded instruction to its meaning (30_encoding R94): one arm per constructor. -/

namespace Sys2Proof.Machine

def exec (i : Instr) (s : State) : Host.Outcome State Fault Refusal :=
  match i with
  -- R-format arithmetic and logic: `op rC, rA, rB` (40_alu section 2)
  | .add c a b => Sys2Proof.Machine.execAdd c a b s
  | .sub c a b => Sys2Proof.Machine.execSub c a b s
  | .and c a b => Sys2Proof.Machine.execAnd c a b s
  | .or c a b => Sys2Proof.Machine.execOr c a b s
  | .xor c a b => Sys2Proof.Machine.execXor c a b s
  | .nor c a b => Sys2Proof.Machine.execNor c a b s
  -- I-format arithmetic and logic: `op rB, rA, imm16` (40_alu section 3)
  | .addi b a imm => Sys2Proof.Machine.execAddi b a imm s
  | .andi b a imm => Sys2Proof.Machine.execAndi b a imm s
  | .andhi b a imm => Sys2Proof.Machine.execAndhi b a imm s
  | .ori b a imm => Sys2Proof.Machine.execOri b a imm s
  | .orhi b a imm => Sys2Proof.Machine.execOrhi b a imm s
  | .xori b a imm => Sys2Proof.Machine.execXori b a imm s
  | .xorhi b a imm => Sys2Proof.Machine.execXorhi b a imm s
  -- shifts: `op rC, rA, rB` and `op rC, rA, imm5` (40_alu section 4)
  | .sll c a b => Sys2Proof.Machine.execSll c a b s
  | .srl c a b => Sys2Proof.Machine.execSrl c a b s
  | .slli c a imm5 => Sys2Proof.Machine.execSlli c a imm5 s
  | .srli c a imm5 => Sys2Proof.Machine.execSrli c a imm5 s
  -- compares (41_compare)
  | .cmpeq c a b => Sys2Proof.Machine.execCmpeq c a b s
  | .cmpne c a b => Sys2Proof.Machine.execCmpne c a b s
  | .cmpge c a b => Sys2Proof.Machine.execCmpge c a b s
  | .cmplt c a b => Sys2Proof.Machine.execCmplt c a b s
  | .cmpeqi b a imm => Sys2Proof.Machine.execCmpeqi b a imm s
  | .cmpnei b a imm => Sys2Proof.Machine.execCmpnei b a imm s
  | .cmpgei b a imm => Sys2Proof.Machine.execCmpgei b a imm s
  | .cmplti b a imm => Sys2Proof.Machine.execCmplti b a imm s
  -- control transfer (42_control)
  | .br imm => Sys2Proof.Machine.execBr imm s
  | .beq a b imm => Sys2Proof.Machine.execBeq a b imm s
  | .bne a b imm => Sys2Proof.Machine.execBne a b imm s
  | .bge a b imm => Sys2Proof.Machine.execBge a b imm s
  | .blt a b imm => Sys2Proof.Machine.execBlt a b imm s
  | .call imm26 => Sys2Proof.Machine.execCall imm26 s
  | .ret => Sys2Proof.Machine.execRet s
  -- memory: `op rB, imm16(rA)` (43_loadstore)
  | .ldw b imm a => Sys2Proof.Machine.execLdw b imm a s
  | .stw b imm a => Sys2Proof.Machine.execStw b imm a s
  | .ldb b imm a => Sys2Proof.Machine.execLdb b imm a s
  | .ldbu b imm a => Sys2Proof.Machine.execLdbu b imm a s
  | .stb b imm a => Sys2Proof.Machine.execStb b imm a s

end Sys2Proof.Machine
end

