-- ==== Sys2Proof/Machine/Cycle.lean ====
section
/-! DEFINITION. The cycle: `execute()` on the instruction register (70 R278), and one iteration of the run loop (R275). -/

namespace Sys2Proof.Machine

/-- `execute()` (R278, 30_encoding R94): the instruction `IR` decodes to, with the current `pc`; it does not fetch. -/
def State.execute (s : State) : Result :=
  match decodeWord s.par.opcodes s.ir with
  | .ok i => exec i s
  | .error _ => s.unknown

/-- One iteration of the run loop (R275): the end test, then `fetch()` and `execute()`. A halted machine does nothing more
until the host acts (R276); a faulted one hands its record to the host and is never resumed (10_state R34, 60_exceptions
R246, R249; log 21). -/
def State.cycle (s : State) : Result :=
  match s.status with
  | .halted => .next s
  | .faulted r => .fault (.aborted r)
  | .running =>
    if s.atEnd = true then .next { s with status := .halted }
    else
      match s.fetch with
      | .error r => .next (s.raise r)
      | .ok s1 => s1.execute

/-- Memory and parameters with the word `w` stored little-endian at `pc` (R55), MEM_SIZE large enough to hold it. -/
def State.placeWord (s : State) (w : Word) : State :=
  { s with
    mem := Memory.writeWord s.mem s.pc.toNat w
    par := { s.par with memSize := max s.par.memSize (s.pc.toNat + 4) } }

/-- What the host's load does so that the very next step fetches at `pc` (R271): the status `Running`, and a text region
that reaches past `pc` (PROGRAM_END is the end of the text, R275). -/
def State.armed (s : State) : State :=
  { s with
    status := .running
    program := { s.program with instructionCount := max s.program.instructionCount (s.pc.toNat / 4 + 1) } }

end Sys2Proof.Machine
end

