-- ==== Sys2Proof/Machine/Step.lean ====
section
/-! DEFINITION. The step of the machine: one iteration of the run loop (70 R275, R282: one step per instruction). -/

namespace Sys2Proof.Machine

/-- One step. -/
def step (s : State) : Host.Outcome State Fault Refusal := s.cycle

/-- The state with an instruction placed where the next step fetches it (log 26): the word at `pc`, in memory the next step
can fetch, with the status `Running` and the program's end past it. This stands for the host's load of a program. -/
def State.withFetchWord (s : State) (nbits w : Nat) : State :=
  (s.placeWord (BitVec.ofNat 32 (w % 2 ^ nbits))).armed

end Sys2Proof.Machine
end

