-- ==== Sys2Proof/Machine/AsmText.lean ====
section
/-! DEFINITION. The assembler's text grammar (30_encoding R110 to R115): lines, tokens, operands and directive expressions,
over lists of characters. What the spec leaves to the transcriber is in log 32. -/

namespace Sys2Proof.Machine

/-- A token of a line (R110). -/
abbrev Token := List Char

/-- The text of a line before its comment (R110). -/
def stripComment : List Char → List Char
  | [] => []
  | c :: t => if c = '#' then [] else c :: stripComment t

/-- Operands are comma or white-space separated (R110). R110 does not list the white space: the model's is space, tab and
carriage return, with the newline between lines, and a run of separators counts as one (DESIGN CHOICE, log 46). -/
def isSeparator (c : Char) : Bool := c == ' ' || c == '\t' || c == ',' || c == '\r'

/-- Characters split at those a test accepts, `acc` holding the open piece in reverse. -/
def splitAt (sep : Char → Bool) : List Char → List Char → List (List Char)
  | acc, [] => [acc.reverse]
  | acc, c :: t => if sep c then acc.reverse :: splitAt sep [] t else splitAt sep (c :: acc) t

/-- The tokens of a line (R110). -/
def tokens (line : List Char) : List Token :=
  (splitAt isSeparator [] (stripComment line)).filter (fun t => !t.isEmpty)

/-- The lines of a text (R110). -/
def textLines (text : List Char) : List (List Char) := splitAt (fun c => c == '\n') [] text

/-- A non-empty run of decimal digits (R112). -/
def parseNat (t : List Char) : Option Nat :=
  if t.isEmpty then none
  else if t.all Char.isDigit then some (t.foldl (fun n c => 10 * n + (c.toNat - '0'.toNat)) 0)
  else none

/-- A decimal integer with an optional leading `-` (R112, D32). -/
def parseInt : List Char → Option Int
  | '-' :: t => (parseNat t).map (fun n => -(n : Int))
  | t => (parseNat t).map (fun n => (n : Int))

/-- A register `r0` to `r31` (R112, D35). -/
def parseReg : List Char → Option RegIx
  | ['r', d] => (parseNat [d]).map (BitVec.ofNat 5)
  | ['r', d, e] =>
    match parseNat [d, e] with
    | some n => if d ≠ '0' ∧ n < 32 then some (BitVec.ofNat 5 n) else none
    | none => none
  | _ => none

/-- A literal or a symbol (R115, R116). -/
inductive Atom where
  | lit (n : Int)
  | sym (name : String)
deriving DecidableEq, Repr

/-- The directive operators (R115). -/
inductive Directive where
  | lo
  | hi
  | hiadj
deriving DecidableEq, Repr

/-- A value operand: an atom, or a directive over one (R115). -/
inductive Expr where
  | atom (a : Atom)
  | dir (d : Directive) (a : Atom)
deriving DecidableEq, Repr

/-- An operand of an instruction line (R113). -/
inductive Operand where
  | reg (i : RegIx)
  | mem (offset : Int) (base : RegIx)
  | expr (e : Expr)
deriving DecidableEq, Repr

/-- `%lo(x) = x[15:0]` (R115). -/
def lo16 (x : Word) : BitVec 16 := x.extractLsb' 0 16

/-- `%hi(x) = x[31:16]` (R115). -/
def hi16 (x : Word) : BitVec 16 := x.extractLsb' 16 16

/-- `%hiadj(x) = (x[31:16] + x[15]) & 0xFFFF` (R115). -/
def hiadj16 (x : Word) : BitVec 16 := hi16 x + (x.extractLsb' 15 1).setWidth 16

/-- The value of a directive (R115). -/
def Directive.eval : Directive → Word → BitVec 16
  | .lo, x => lo16 x
  | .hi, x => hi16 x
  | .hiadj, x => hiadj16 x

/-- A literal, or a symbol name. What reads as a decimal literal is one, also where a label has that name (DESIGN CHOICE,
log 48). -/
def parseAtom (t : List Char) : Option Atom :=
  match parseInt t with
  | some n => some (.lit n)
  | none => if t.isEmpty then none else some (.sym (String.ofList t))

/-- `%name(inner)` (R115): the inner value is a literal or a symbol, so a directive within a directive is no operand, and the
names are lower case (DESIGN CHOICE, log 50). -/
def parseDirective (t : List Char) : Option Expr :=
  match splitAt (fun c => c == '(') [] t with
  | [name, rest] =>
    match splitAt (fun c => c == ')') [] rest with
    | [inner, []] =>
      match String.ofList name, parseAtom inner with
      | "%lo", some a => some (.dir .lo a)
      | "%hi", some a => some (.dir .hi a)
      | "%hiadj", some a => some (.dir .hiadj a)
      | _, _ => none
    | _ => none
  | _ => none

/-- `offset(rBase)`, the fixed pattern of a memory operand (R113). -/
def parseMemOperand (t : List Char) : Option Operand :=
  match splitAt (fun c => c == '(') [] t with
  | [off, rest] =>
    match splitAt (fun c => c == ')') [] rest with
    | [base, []] =>
      match parseInt off, parseReg base with
      | some n, some r => some (.mem n r)
      | _, _ => none
    | _ => none
  | _ => none

/-- An operand token (R112, R113, R115, R116). A register's spelling is that register, also where a label has that name
(DESIGN CHOICE, log 48). The spec does not say which characters a name may hold: an operand that holds a parenthesis or begins
with `%` and is no directive and no memory operand is refused, even where a label has that name (DESIGN CHOICE, log 52). -/
def parseOperand (t : List Char) : Option Operand :=
  match parseReg t with
  | some r => some (.reg r)
  | none =>
    if t.head? = some '%' then (parseDirective t).map .expr
    else
      match parseMemOperand t with
      | some m => some m
      | none => if t.any (fun c => c == '(' || c == ')') then none else (parseAtom t).map (fun a => .expr (.atom a))

end Sys2Proof.Machine
end

