-- ==== Sys2Proof/Machine/Assemble.lean ====
section
/-! DEFINITION. The assembler as 30_encoding section 8 gives it: pseudo-instructions (R124, R126), operand resolution
(R115 to R118), segments and labels (R111, R127), the program it produces (R127, R128) and its errors (R129). -/

namespace Sys2Proof.Machine

/-- An assembler failure: 0-based line, the offending mnemonic or token, and a message (R129). It is no core fault (R250). -/
structure AsmError where
  line : Nat
  text : String
  message : String
deriving DecidableEq, Repr

/-- A source instruction: a mnemonic in lower case (R112) and its operands. -/
structure SourceInstr where
  mnemonic : String
  operands : List Operand
deriving DecidableEq, Repr

/-! ### Pseudo-instructions (R124, fixed and non-recursive) -/

/-- The expansion of a pseudo-instruction, `none` for wrong operands; any other mnemonic stands for itself. The third operand
of `subi` is a literal: R124 negates "the integer `c`" and does not say what a symbol or a directive does there, so the model
refuses one (DESIGN CHOICE, log 39). `movia` takes a literal as well as a symbol, and no directive (DESIGN CHOICE, log 50). -/
def SourceInstr.expand (cmple : CmpleExpansion) (i : SourceInstr) : Option (List SourceInstr) :=
  match i.mnemonic with
  | "subi" =>
    match i.operands with
    | [a, b, .expr (.atom (.lit n))] => some [⟨"addi", [a, b, .expr (.atom (.lit (-n)))]⟩]
    | _ => none
  | "cmple" =>
    match i.operands, cmple with
    | [a, b, c], .swapSources => some [⟨"cmpge", [a, c, b]⟩]
    | [a, b, c], .literal => some [⟨"cmpge", [b, a, c]⟩]
    | _, _ => none
  | "cmpgt" =>
    match i.operands, cmple with
    | [a, b, c], .swapSources => some [⟨"cmplt", [a, c, b]⟩]
    | [a, b, c], .literal => some [⟨"cmplt", [b, a, c]⟩]
    | _, _ => none
  | "bgt" =>
    match i.operands with
    | [a, b, l] => some [⟨"blt", [b, a, l]⟩]
    | _ => none
  | "ble" =>
    match i.operands with
    | [a, b, l] => some [⟨"bge", [b, a, l]⟩]
    | _ => none
  | "movi" =>
    match i.operands with
    | [a, n] => some [⟨"addi", [a, .reg 0, n]⟩]
    | _ => none
  | "mov" =>
    match i.operands with
    | [a, b] => some [⟨"add", [a, b, .reg 0]⟩]
    | _ => none
  | "movia" =>
    match i.operands with
    | [a, .expr (.atom s)] =>
      some [⟨"orhi", [a, .reg 0, .expr (.dir .hiadj s)]⟩, ⟨"addi", [a, a, .expr (.dir .lo s)]⟩]
    | _ => none
  | "nop" =>
    match i.operands with
    | [] => some [⟨"add", [.reg 0, .reg 0, .reg 0]⟩]
    | _ => none
  | _ => some [i]

/-! ### Operand resolution -/

/-- Name → byte address (R13). -/
abbrev Symbols := List (String × Nat)

/-- The address of a symbol. -/
def Symbols.lookup (syms : Symbols) (name : String) : Option Nat :=
  (syms.find? (fun e => e.1 == name)).map (fun e => e.2)

/-- The integer of an atom: the literal, or the symbol's raw address (R116). -/
def Atom.resolve (syms : Symbols) : Atom → Option Int
  | .lit n => some n
  | .sym s => (Symbols.lookup syms s).map (fun n => (n : Int))

/-- The integer of a value operand of a non-branch instruction (R115, R116). A symbol without an address has none, within a
directive too: R116 speaks of a non-directive context only, so within one that is the model's choice (DESIGN CHOICE, log 40). -/
def Expr.resolve (syms : Symbols) : Expr → Option Int
  | .atom a => a.resolve syms
  | .dir d a => (a.resolve syms).map (fun n => ((d.eval (BitVec.ofInt 32 n)).toNat : Int))

/-- The offset a branch at instruction index `k` is encoded with (R117): `t - (k + 1) * 4` for the address `t` of a symbol or
directive, the literal itself for a literal (D33). -/
def Expr.branchOffset (syms : Symbols) (k : Nat) : Expr → Option Int
  | .atom (.lit n) => some n
  | e => (e.resolve syms).map (fun t => t - ((k : Int) + 1) * 4)

/-- `IMM16` of an integer: its low 16 bits (R88, R114). -/
def imm16OfInt (n : Int) : BitVec 16 := BitVec.ofInt 16 n

/-- `IMM26 = (t / 4) & 0x3FFFFFF` of a call target (R118). The division of a negative literal that is no multiple of 4, which
R118 does not settle, rounds down (DESIGN CHOICE, log 41). -/
def imm26OfTarget (t : Int) : BitVec 26 := BitVec.ofInt 26 (t / 4)

/-! ### Mnemonics by family (R113) -/

/-- `op rC, rA, rB` -/
def rMnemonics : List (String × (RegIx → RegIx → RegIx → Instr)) :=
  [ ("add", .add), ("sub", .sub), ("and", .and), ("or", .or), ("xor", .xor), ("nor", .nor), ("sll", .sll), ("srl", .srl),
    ("cmpeq", .cmpeq), ("cmpne", .cmpne), ("cmpge", .cmpge), ("cmplt", .cmplt) ]

/-- `op rC, rA, imm5` -/
def shiftMnemonics : List (String × (RegIx → RegIx → BitVec 5 → Instr)) :=
  [ ("slli", .slli), ("srli", .srli) ]

/-- `op rB, rA, imm16` -/
def iMnemonics : List (String × (RegIx → RegIx → BitVec 16 → Instr)) :=
  [ ("addi", .addi), ("andi", .andi), ("andhi", .andhi), ("ori", .ori), ("orhi", .orhi), ("xori", .xori), ("xorhi", .xorhi),
    ("cmpeqi", .cmpeqi), ("cmpnei", .cmpnei), ("cmpgei", .cmpgei), ("cmplti", .cmplti) ]

/-- `op rA, rB, target` -/
def branchMnemonics : List (String × (RegIx → RegIx → BitVec 16 → Instr)) :=
  [ ("beq", .beq), ("bne", .bne), ("bge", .bge), ("blt", .blt) ]

/-- `op rB, offset(rA)` -/
def memMnemonics : List (String × (RegIx → BitVec 16 → RegIx → Instr)) :=
  [ ("ldw", .ldw), ("stw", .stw), ("ldb", .ldb), ("ldbu", .ldbu), ("stb", .stb) ]

/-- The entry of a mnemonic in a family's list. -/
def byName {α : Type} (l : List (String × α)) (name : String) : Option α :=
  (l.find? (fun e => e.1 == name)).map (fun e => e.2)

/-- One real instruction at index `k` (R113 to R119), or the message of the error. -/
def SourceInstr.assemble (syms : Symbols) (k : Nat) (i : SourceInstr) : Except String Instr :=
  match byName rMnemonics i.mnemonic, i.operands with
  | some f, [.reg c, .reg a, .reg b] => .ok (f c a b)
  | some _, _ => .error "operands"
  | none, ops =>
  match byName shiftMnemonics i.mnemonic, ops with
  | some f, [.reg c, .reg a, .expr e] =>
    match e.resolve syms with
    | some n => if 0 ≤ n ∧ n ≤ 31 then .ok (f c a (BitVec.ofInt 5 n)) else .error "shift amount outside 0 to 31"
    | none => .error "unresolved symbol"
  | some _, _ => .error "operands"
  | none, ops =>
  match byName iMnemonics i.mnemonic, ops with
  | some f, [.reg b, .reg a, .expr e] =>
    match e.resolve syms with
    | some n => .ok (f b a (imm16OfInt n))
    | none => .error "unresolved symbol"
  | some _, _ => .error "operands"
  | none, ops =>
  match byName branchMnemonics i.mnemonic, ops with
  | some f, [.reg a, .reg b, .expr e] =>
    match e.branchOffset syms k with
    | some n => .ok (f a b (imm16OfInt n))
    | none => .error "unresolved symbol"
  | some _, _ => .error "operands"
  | none, ops =>
  match byName memMnemonics i.mnemonic, ops with
  | some f, [.reg b, .mem off a] => .ok (f b (imm16OfInt off) a)
  | some _, _ => .error "operands"
  | none, ops =>
  match i.mnemonic, ops with
  | "br", [.expr e] =>
    match e.branchOffset syms k with
    | some n => .ok (.br (imm16OfInt n))
    | none => .error "unresolved symbol"
  | "call", [.expr e] =>
    match e.resolve syms with
    | some t => .ok (.call (imm26OfTarget t))
    | none => .error "unresolved symbol"
  | "ret", [] => .ok .ret
  | "br", _ => .error "operands"
  | "call", _ => .error "operands"
  | "ret", _ => .error "operands"
  | _, _ => .error "unknown mnemonic"

/-! ### Pass 1: lines to instructions, variables and labels -/

/-- Where a label stands: an output instruction index (R111) or a variable's index (R127). -/
inductive LabelPos where
  | text (k : Nat)
  | data (j : Nat)
deriving DecidableEq, Repr

/-- What pass 1 has gathered; the lists stand in program order. -/
structure Scan where
  inData : Bool
  text : List (Nat × SourceInstr)
  data : List Int
  labels : List (String × LabelPos)
deriving DecidableEq, Repr

/-- A label at the present place (R111, R127); a name used twice is an error (log 32). -/
def Scan.label (sc : Scan) (line : Nat) (name : String) : Except AsmError Scan :=
  if sc.labels.any (fun e => e.1 == name) then .error { line := line, text := name, message := "label defined twice" }
  else
    .ok { sc with
      labels := sc.labels ++ [(name, if sc.inData then .data sc.data.length else .text sc.text.length)] }

/-- An instruction line: its macro expansion in place (R124). -/
def Scan.instr (cmple : CmpleExpansion) (sc : Scan) (line : Nat) (mnemonic : Token) (ops : List Token) :
    Except AsmError Scan :=
  let name := String.ofList (mnemonic.map Char.toLower)
  match ops.mapM parseOperand with
  | none => .error { line := line, text := name, message := "operands" }
  | some operands =>
    match ({ mnemonic := name, operands := operands } : SourceInstr).expand cmple with
    | none => .error { line := line, text := name, message := "operands" }
    | some l => .ok { sc with text := sc.text ++ l.map (fun i => (line, i)) }

/-- The tokens of one line (R110, R111, R127). A `.word` of the data region may stand without a label, a form R127 does not
give, and reserves its 4 bytes (DESIGN CHOICE, log 42). A line may carry several labels, of which R111 does not speak
(DESIGN CHOICE, log 47). An instruction line inside `.data`, of which R127 does not speak, is an error (DESIGN CHOICE,
log 51). -/
def Scan.line (cmple : CmpleExpansion) (sc : Scan) (line : Nat) : List Token → Except AsmError Scan
  | [] => .ok sc
  | t :: rest =>
    if String.ofList t = ".data" then Scan.line cmple { sc with inData := true } line rest
    else if String.ofList t = ".text" then Scan.line cmple { sc with inData := false } line rest
    else if t.getLast? = some ':' then
      match sc.label line (String.ofList t.dropLast) with
      | .error e => .error e
      | .ok sc1 =>
        if rest.isEmpty && !sc1.inData then Scan.instr cmple sc1 line "nop".toList []
        else Scan.line cmple sc1 line rest
    else if sc.inData then
      match rest with
      | v :: rest' =>
        match decide (String.ofList t = ".word"), parseInt v with
        | true, some n => Scan.line cmple { sc with data := sc.data ++ [n] } line rest'
        | _, _ => .error { line := line, text := String.ofList t, message := "not a variable" }
      | [] => .error { line := line, text := String.ofList t, message := "not a variable" }
    else Scan.instr cmple sc line t rest

/-- Every line of a text, numbered from `n`. -/
def Scan.lines (cmple : CmpleExpansion) (sc : Scan) (n : Nat) : List (List Char) → Except AsmError Scan
  | [] => .ok sc
  | l :: t =>
    match Scan.line cmple sc n (tokens l) with
    | .error e => .error e
    | .ok sc1 => Scan.lines cmple sc1 (n + 1) t

/-! ### Pass 2: symbols, words and the program -/

/-- The byte address of a label: `4k` in the text, `dataStart + 4j` in the data region, `dataStart` being the end of the
text (R111, R127, D14). -/
def LabelPos.address (textLength : Nat) : LabelPos → Nat
  | .text k => 4 * k
  | .data j => 4 * textLength + 4 * j

/-- The symbols of a text: its labels, then the seed table (R118). -/
def Scan.symbols (sc : Scan) (seed : Symbols) : Symbols :=
  sc.labels.map (fun e => (e.1, e.2.address sc.text.length)) ++ seed

/-- The instructions from index `k` on (R117: a branch's offset depends on its index). An error inside a pseudo-instruction
names the real mnemonic it expands to, in lower case, which R129 leaves open (DESIGN CHOICE, log 49). -/
def assembleFrom (syms : Symbols) : Nat → List (Nat × SourceInstr) → Except AsmError (List Instr)
  | _, [] => .ok []
  | k, (line, i) :: t =>
    match i.assemble syms k with
    | .error m => .error { line := line, text := i.mnemonic, message := m }
    | .ok ins =>
      match assembleFrom syms (k + 1) t with
      | .error e => .error e
      | .ok l => .ok (ins :: l)

/-- The bytes of a word, lowest address first (R52, R127). -/
def bytesOfWord (w : Word) : List Byte := [byteOfWord w 0, byteOfWord w 1, byteOfWord w 2, byteOfWord w 3]

/-- The program of assembled instructions and variables: text bytes then data bytes, entered at the address of `main` if the
source has that label, else at the text's start (R127, R128, R274). A `.word` literal outside 32 bits, of which R127 does not
speak, is cut to its low 32 bits (DESIGN CHOICE, log 43). -/
def programOf (v : OpcodeValues) (ins : List Instr) (data : List Int) (main : Option Nat) : Program :=
  { image := ins.flatMap (encodeBytes v) ++ data.flatMap (fun n => bytesOfWord (BitVec.ofInt 32 n))
    instructionCount := ins.length
    entryPoint := BitVec.ofNat 32 (main.getD 0) }

/-- `assemble(text, seed)` (R290) under two parameters of R8: the program, or the first error (R129). A function of its
arguments, so assembling the same text twice gives the same image. -/
def assemble (v : OpcodeValues) (cmple : CmpleExpansion) (text : List Char) (seed : Symbols) : Except AsmError Program :=
  match Scan.lines cmple { inData := false, text := [], data := [], labels := [] } 0 (textLines text) with
  | .error e => .error e
  | .ok sc =>
    match assembleFrom (sc.symbols seed) 0 sc.text with
    | .error e => .error e
    | .ok ins =>
      .ok (programOf v ins sc.data (Symbols.lookup (sc.labels.map (fun e => (e.1, e.2.address sc.text.length))) "main"))

end Sys2Proof.Machine
end

