-- ==== Sys2Proof/Machine/HostIface.lean ====
section
/-! DEFINITION. What the host can do between steps (70_reset_and_hazards sections 1, 2 and 5; table R290). -/

namespace Sys2Proof.Machine

/-! ### Loading and restarting (R271, R272) -/

/-- `loadProgram(P)` (R271): the image at address 0, every register and `IR` 0, the log empty, `pc` at the entry point, the
status `Running`; SYSCALLS stays. The bytes at and above the image's length are unspecified (MEM_INIT, D15): `memInit`
describes them, and every memory is described by some `memInit`. Image bytes outside the memory are dropped (log 13). The
outputs of earlier host actions stay, and so does the count of draws: neither R271 nor R273 speaks of outputs (DESIGN
CHOICE, log 44). -/
def State.loadProgram (s : State) (p : Program) (memInit : List Host.Cell) : State :=
  { s with
    regs := Vector.replicate 32 0
    pc := p.entryPoint
    ir := 0
    mem := Memory.writeBytes s.par.memSize (Memory.ofCells s.par.memSize memInit) 0 p.image
    status := .running
    log := []
    program := p }

/-- `restartProgram()` (R272): `loadProgram` of the program last loaded. -/
def State.restartProgram (s : State) (memInit : List Host.Cell) : State :=
  s.loadProgram s.program memInit

/-! ### Running (R275, R276, R287) -/

/-- At most `n` iterations of the run loop, while the status is `Running`. A loop that the host's `stop()` ends after `n`
completed iterations is `runLoop n`: the state is as the last completed step left it (R285, R287). -/
def runLoop : Nat → State → Result
  | 0, s => .next s
  | n + 1, s =>
    match s.status with
    | .running =>
      match step s with
      | .next t => runLoop n t
      | .fault r => .fault r
      | .refused r => .refused r
    | _ => .next s

/-- `run()` (R275): `pc <- entryPoint`, then the loop, here for at most `n` iterations. -/
def State.run (n : Nat) (s : State) : Result :=
  runLoop n { s with pc := s.program.entryPoint }

/-- `run(P)` (R275): load, then run. -/
def State.runProgram (n : Nat) (s : State) (p : Program) (memInit : List Host.Cell) : Result :=
  (s.loadProgram p memInit).run n

/-- The record `run()` returns to its caller, if the run ended in a fault (R246, R290). -/
def State.faultRecord (s : State) : Option FaultRecord :=
  match s.status with
  | .faulted r => some r
  | _ => none

/-! ### Half-steps (R277, R278) -/

/-- The host's `fetch()`: a fault of it sets the status (R244). It acts whatever the status, and its fault replaces an older
record: R277 gives the half-step no status condition (DESIGN CHOICE, log 45). -/
def State.hostFetch (s : State) : State :=
  match s.fetch with
  | .ok t => t
  | .error r => s.raise r

/-- The host's `execute()`: `IR` again with the current `pc`, whatever was fetched before (R278), and whatever the status, as
for `State.hostFetch` (DESIGN CHOICE, log 45). -/
def State.hostExecute (s : State) : Result := s.execute

/-! ### Accessors (R286, D40; log 35) -/

/-- Register get. -/
def State.hostGetReg (s : State) (i : RegIx) : Word := s.reg i

/-- Register set: `r0` is discarded (R21). -/
def State.hostSetReg (s : State) (i : RegIx) (v : Word) : State := s.setReg i v

/-- Byte get; there is no byte outside the memory. -/
def State.hostGetByte (s : State) (a : Word) : Option Byte :=
  if s.inRange a 1 = true then some (Memory.read s.mem a.toNat) else none

/-- Byte set; nothing outside the memory is written. -/
def State.hostSetByte (s : State) (a : Word) (v : Byte) : State :=
  if s.inRange a 1 = true then { s with mem := Memory.write s.mem a.toNat v } else s

/-- Word get, little-endian, unchecked for alignment. -/
def State.hostGetWord (s : State) (a : Word) : Option Word :=
  if s.inRange a 4 = true then some (Memory.readWord s.mem a.toNat) else none

/-- Word set, little-endian, unchecked for alignment. -/
def State.hostSetWord (s : State) (a : Word) (v : Word) : State :=
  if s.inRange a 4 = true then { s with mem := Memory.writeWord s.mem a.toNat v } else s

/-! ### System calls (R252, R288) -/

/-- `addSystemCall(name, address, action)`. -/
def State.addSystemCall (s : State) (name : String) (address : Word) (action : Nat) : State :=
  { s with syscalls := { name := name, address := address, action := action } :: s.syscalls }

/-- The name → address lookup. -/
def State.systemCallAddress (s : State) (name : String) : Option Word :=
  (s.syscalls.find? (fun e => e.name == name)).map (fun e => e.address)

/-- The bindings the assembler receives as its seed symbol table (30_encoding R118). -/
def State.symbolSeed (s : State) : List (String × Nat) :=
  s.syscalls.map (fun e => (e.name, e.address.toNat))

end Sys2Proof.Machine
end

