-- ==== Sys2Proof/Safety.lean ====
section
/-! DEFINITION. The terms claims are made in: what an outcome answers, what a next state may differ in, which registers an
instruction reads and writes, the machine's invariant, and what counts as a safe run. -/

namespace Sys2Proof

/-- The registers an instruction reads (10_state R23). -/
def Instr.sources : Instr → List RegIx
  | .add _ a b | .sub _ a b | .and _ a b | .or _ a b | .xor _ a b | .nor _ a b => [a, b]
  | .sll _ a b | .srl _ a b | .cmpeq _ a b | .cmpne _ a b | .cmpge _ a b | .cmplt _ a b => [a, b]
  | .addi _ a _ | .andi _ a _ | .andhi _ a _ | .ori _ a _ | .orhi _ a _ | .xori _ a _ | .xorhi _ a _ => [a]
  | .cmpeqi _ a _ | .cmpnei _ a _ | .cmpgei _ a _ | .cmplti _ a _ => [a]
  | .slli _ a _ | .srli _ a _ => [a]
  | .br _ | .call _ => []
  | .beq a b _ | .bne a b _ | .bge a b _ | .blt a b _ => [a, b]
  | .ret => [31]
  | .ldw _ _ a | .ldb _ _ a | .ldbu _ _ a => [a]
  | .stw b _ a | .stb b _ a => [a, b]

/-- The one register an instruction writes, if any (10_state R23). -/
def Instr.dest : Instr → Option RegIx
  | .add c _ _ | .sub c _ _ | .and c _ _ | .or c _ _ | .xor c _ _ | .nor c _ _ => some c
  | .sll c _ _ | .srl c _ _ | .slli c _ _ | .srli c _ _ => some c
  | .cmpeq c _ _ | .cmpne c _ _ | .cmpge c _ _ | .cmplt c _ _ => some c
  | .addi b _ _ | .andi b _ _ | .andhi b _ _ | .ori b _ _ | .orhi b _ _ | .xori b _ _ | .xorhi b _ _ => some b
  | .cmpeqi b _ _ | .cmpnei b _ _ | .cmpgei b _ _ | .cmplti b _ _ => some b
  | .ldw b _ _ | .ldb b _ _ | .ldbu b _ _ => some b
  | .call _ => some 31
  | .br _ | .beq _ _ _ | .bne _ _ _ | .bge _ _ _ | .blt _ _ _ | .ret | .stw _ _ _ | .stb _ _ _ => none

/-- A control transfer: the instructions that may leave `pc` elsewhere than at the post-increment value (10_state R27). -/
def Instr.transfersControl : Instr → Bool
  | .br _ | .beq _ _ _ | .bne _ _ _ | .bge _ _ _ | .blt _ _ _ | .call _ | .ret => true
  | _ => false

/-- A store (20_memory R51). -/
def Instr.isStore : Instr → Bool
  | .stw _ _ _ | .stb _ _ _ => true
  | _ => false

/-- The instruction uses every field of its format (30_encoding R92 lists the others). -/
def Instr.usesAllFields : Instr → Bool
  | .slli _ _ _ | .srli _ _ _ | .br _ | .ret => false
  | _ => true

end Sys2Proof

namespace Sys2Proof.Machine

/-- The outcome is a next state with the property. -/
def Answers (o : Result) (P : State → Prop) : Prop := ∃ t, o = .next t ∧ P t

/-- `t` is `s` with the value `v` in register `d` and nothing else changed: every other register reads as before, a `d` that
is `r0` discards the value (10_state R21), every byte of memory reads as before, and every other field is equal. -/
def WritesReg (s : State) (d : RegIx) (v : Word) (t : State) : Prop :=
  (∀ r, t.reg r = if r = d ∧ r ≠ 0 then v else s.reg r) ∧
  (∀ a, Memory.read t.mem a = Memory.read s.mem a) ∧
  t = { s with regs := t.regs }

/-- `t` is `s` with these bytes stored from address `a` on and nothing else changed: every byte outside them reads as
before, and every other field is equal. -/
def WritesMem (s : State) (a : Nat) (bytes : List Byte) (t : State) : Prop :=
  (∀ k (h : k < bytes.length), Memory.read t.mem (a + k) = bytes[k]) ∧
  (∀ x, x < a ∨ a + bytes.length ≤ x → Memory.read t.mem x = Memory.read s.mem x) ∧
  t = { s with mem := t.mem }

/-- `t` is `s` with the status `Faulted(r)` and nothing else changed (60_exceptions R244). -/
def Faults (s : State) (r : FaultRecord) (t : State) : Prop := t = { s with status := .faulted r }

/-- `t` is `s` with `pc` at `target` and nothing else changed. -/
def JumpsTo (s : State) (target : Word) (t : State) : Prop := t = { s with pc := target }

/-- The instruction in this state is a call to an address bound in SYSCALLS (42_control R198). -/
def State.callsHost (s : State) (i : Instr) : Bool :=
  match i with
  | .call n => (s.syscallAt (callTarget s.pc n)).isSome
  | _ => false

/-- The machine's invariant: `pc` is a multiple of 4 (10_state R25), the storage of `r0` holds 0 (R21), memory is in its
canonical form and inside MEM_SIZE (20_memory R50). -/
structure State.Inv (s : State) : Prop where
  pcAligned : s.pc.toNat % 4 = 0
  slotZero : s.regs[0] = 0
  memCanonical : Memory.wf s.mem = true
  memInside : Memory.within s.par.memSize s.mem = true

/-- A state of a safe run: no fault, and no unknown instruction has been skipped (93 U1: a claim premises an empty log). -/
def State.safe (s : State) : Bool :=
  match s.status with
  | .faulted _ => false
  | _ => s.log.isEmpty

/-- A run of at most `n` iterations from the loaded program ends safely. -/
def State.runsSafely (n : Nat) (s : State) : Bool :=
  match s.run n with
  | .next t => t.safe
  | _ => false

end Sys2Proof.Machine
end

