-- ==== Sys2Proof/Certificates/Slice0/Obligations.lean ====
section
/-! DEFINITION. The statements for the provers. Each docstring says what is stated and which sentence of the spec it rests on.
Where a statement rests on a decision of the spec or of the model, the docstring says so. -/

open Sys2Proof Sys2Proof.Machine

/-! ### The codec (30_encoding) -/

/-- The worked encodings of 30_encoding section 7 and one vector of 95_test_vectors for each other family: each word decodes
to its instruction, and the instruction encodes to the word, under the default opcode values, which are general knowledge
(log 1). -/
def Obligations.WorkedEncodingsDecodeAndEncode : Prop :=
  ∀ p ∈ ([(0x31CB883A, .add 5 6 7), (0x0001883A, .add 0 0 0), (0x01800284, .addi 6 0 10), (0x423FFFC4, .addi 8 8 0xFFFF),
      (0x100697FA, .slli 3 2 31), (0xF800283A, .ret), (0x00000400, .call 0x10), (0x0886403A, .cmpge 3 1 2),
      (0x08BFFFE0, .cmpeqi 2 1 0xFFFF), (0x08800426, .beq 1 2 16), (0x003FFF06, .br 0xFFFC),
      (0x08400117, .ldw 1 4 1), (0x088000C5, .stb 2 3 1)] : List (Word × Instr)),
    decodeWord OpcodeValues.specDefault p.1 = .ok p.2 ∧ encode OpcodeValues.specDefault p.2 = p.1

/-- Under every well-formed table of opcode values, decoding the word of any instruction gives the instruction back, every
operand at every value (30_encoding sections 3 to 5; OPCODE_VALUES is 00_scope section 4; field roles log 3, masks log 8). -/
def Obligations.DecodeOfEncodeIsIdentity : Prop :=
  ∀ v : OpcodeValues, v.wellFormed = true → ∀ i : Instr, decodeWord v (encode v i) = .ok i

/-- The same through memory's byte order: an instruction's four bytes, whatever follows, decode to it (20_memory section 2,
decision D13, log 12). -/
def Obligations.DecodeOfEncodedBytes : Prop :=
  ∀ v : OpcodeValues, v.wellFormed = true →
    ∀ (i : Instr) (rest : List Byte), decode v (encodeBytes v i ++ rest) = .ok (i, rest)

/-- R88: the codec's `encode` is total and cuts every field to its width: its three formulas on all numbers, and the two
immediates the rule works out. -/
def Obligations.EncodeMasksEveryField : Prop :=
  (∀ f : IFields, encodeI f = BitVec.ofNat 32
    ((f.a &&& 0x1F) <<< 27 ||| (f.b &&& 0x1F) <<< 22 ||| (f.imm16 &&& 0xFFFF) <<< 6 ||| (f.op &&& 0x3F))) ∧
  (∀ f : RFields, encodeR f = BitVec.ofNat 32
    ((f.a &&& 0x1F) <<< 27 ||| (f.b &&& 0x1F) <<< 22 ||| (f.c &&& 0x1F) <<< 17 ||| (f.opx &&& 0x7FF) <<< 6 ||| (f.op &&& 0x3F))) ∧
  (∀ f : JFields, encodeJ f = BitVec.ofNat 32 ((f.imm26 &&& 0x3FFFFFF) <<< 6 ||| (f.op &&& 0x3F))) ∧
  imm16OfInt (-1) = 0xFFFF ∧ imm16OfInt 70000 = 4464

/-- R87: the three views of any word are projections of its bits. -/
def Obligations.DecodeViewsAreProjections : Prop :=
  ∀ w : Word,
    decodeI w = { op := w.toNat % 2 ^ 6, imm16 := w.toNat / 2 ^ 6 % 2 ^ 16, b := w.toNat / 2 ^ 22 % 2 ^ 5,
                  a := w.toNat / 2 ^ 27 % 2 ^ 5 } ∧
    decodeR w = { op := w.toNat % 2 ^ 6, opx := w.toNat / 2 ^ 6 % 2 ^ 11, c := w.toNat / 2 ^ 17 % 2 ^ 5,
                  b := w.toNat / 2 ^ 22 % 2 ^ 5, a := w.toNat / 2 ^ 27 % 2 ^ 5 } ∧
    decodeJ w = { op := w.toNat % 2 ^ 6, imm26 := w.toNat / 2 ^ 6 % 2 ^ 26 }

/-- The round trip of 30_encoding section 3 in each format: fields within their widths come back, and every word is rebuilt
from its fields. -/
def Obligations.NumericCodecRoundTrips : Prop :=
  (∀ f : IFields, f.wellFormed = true → decodeI (encodeI f) = f) ∧
  (∀ f : RFields, f.wellFormed = true → decodeR (encodeR f) = f) ∧
  (∀ f : JFields, f.wellFormed = true → decodeJ (encodeJ f) = f) ∧
  (∀ w : Word, encodeI (decodeI w) = w ∧ encodeR (decodeR w) = w ∧ encodeJ (decodeJ w) = w)

/-- Under the default opcode values, exactly the words with a row in the opcode map decode (30_encoding sections 4 to 6; values
log 1, masks log 8); every other word is unknown. -/
def Obligations.DecodableWordsExactly : Prop :=
  ∀ w : Word, (∃ i, decodeWord OpcodeValues.specDefault w = .ok i) ↔
    (opOf w).toNat ∈ [0x00, 0x03, 0x04, 0x05, 0x06, 0x07, 0x08, 0x0C, 0x0E, 0x10, 0x14, 0x15, 0x16, 0x17, 0x18, 0x1C, 0x1E,
      0x20, 0x26, 0x2C, 0x34, 0x3C] ∨
    ((opOf w).toNat = 0x3A ∧
      ((opxOf w).toNat ∈ [0x0A0, 0x0C0, 0x100, 0x1C0, 0x200, 0x260, 0x2C0, 0x300, 0x360, 0x3C0, 0x400, 0x620, 0x720] ∨
       (opxOf w &&& 0x7E0).toNat ∈ [0x240, 0x340]))

/-- Where an instruction uses every field of its format, its word is the only one that decodes to it, under every table of
opcode values. For the R-format instructions of three registers this rests on decision D9 (log 8): their low five bits of OPX
are matched, so a word with others there is unknown. -/
def Obligations.DecodedWordIsTheEncoding : Prop :=
  ∀ (v : OpcodeValues) (w : Word) (i : Instr), decodeWord v w = .ok i → i.usesAllFields = true → encode v i = w

/-- The fields an instruction does not use take no part in decoding: B of the shift-immediates, A and B of `br`, A, B and C of
`ret` (30_encoding section 4, decision D8, log 7), under every well-formed table of opcode values. -/
def Obligations.UnusedFieldsAreIgnored : Prop :=
  ∀ v : OpcodeValues, v.wellFormed = true → ∀ (a b c : RegIx) (n : BitVec 5) (imm : BitVec 16),
    decodeWord v (packR a b c (opxOfSix v.slli ||| n.setWidth 11) v.rType) = .ok (.slli c a n) ∧
    decodeWord v (packR a b c (opxOfSix v.srli ||| n.setWidth 11) v.rType) = .ok (.srli c a n) ∧
    decodeWord v (packI a b imm v.br) = .ok (.br imm) ∧
    decodeWord v (packR a b c (opxOfSix v.ret) v.rType) = .ok .ret

/-! ### Reset, the invariant, the step -/

/-- What VM construction leaves (70 section 1, the spec's decisions D16 and D17; logs 14 to 17): registers, pc and IR 0, nothing
listed in memory, empty log and SYSCALLS, status Halted, the decided defaults of the two policies and of the opcode values
(logs 9, 19, 1). -/
def Obligations.ResetState : Prop :=
  (∀ r, State.reset.reg r = 0) ∧ State.reset.pc = 0 ∧ State.reset.ir = 0 ∧ State.reset.mem = [] ∧
  State.reset.log = [] ∧ State.reset.syscalls = [] ∧ State.reset.status = .halted ∧
  State.reset.par.unknownPolicy = .skip ∧ State.reset.par.branchAlignCheck = .always ∧
  State.reset.par.opcodes = OpcodeValues.specDefault

/-- The invariant holds at reset. -/
def Obligations.ResetMeetsInvariant : Prop := State.reset.Inv

/-- Every step keeps the invariant, from every state that meets it: pc a multiple of 4, the storage of r0 zero, memory
canonical and inside MEM_SIZE. -/
def Obligations.StepKeepsInvariant : Prop :=
  ∀ s t : State, s.Inv → step s = .next t → t.Inv

/-- R25: the program counter is always a multiple of 4: every step keeps it so. -/
def Obligations.StepKeepsPcMultipleOfFour : Prop :=
  ∀ s t : State, s.pc.toNat % 4 = 0 → step s = .next t → t.pc.toNat % 4 = 0

/-- A step of a running machine not at its end fetches the word at pc into IR, advances pc by 4, and then executes it: where the
four bytes at pc decode to `i`, the step is `exec i` with pc already post-increment (10_state section 2, 70 section 2).
The byte order of the fetch is decision D13 (log 12). -/
def Obligations.StepRunsTheDecodedInstruction : Prop :=
  ∀ (s : State) (i : Instr), s.status = .running → s.atEnd = false → s.pc.toNat + 4 ≤ s.par.memSize →
    decode s.par.opcodes [Memory.read s.mem s.pc.toNat, Memory.read s.mem (s.pc.toNat + 1), Memory.read s.mem (s.pc.toNat + 2),
      Memory.read s.mem (s.pc.toNat + 3)] = .ok (i, []) →
    step s = exec i { s with ir := Memory.readWord s.mem s.pc.toNat, pc := s.pc + 4 }

/-- The end test of the run loop under both values of HALT_CMP, and the halt (70 section 2, decision D19, log 17). -/
def Obligations.RunHaltsAtProgramEnd : Prop :=
  (∀ s : State, s.par.haltCmp = .eq → (s.atEnd = true ↔ s.pc.toNat = 4 * s.program.instructionCount)) ∧
  (∀ s : State, s.par.haltCmp = .ge → (s.atEnd = true ↔ 4 * s.program.instructionCount ≤ s.pc.toNat)) ∧
  (∀ s : State, s.status = .running → s.atEnd = true → step s = .next { s with status := .halted })

/-- A halted machine does nothing more, and a faulted one is never cleared by a step: it hands its record to the host
(10_state section 5, 60_exceptions section 2; the form of the stop is log 21). -/
def Obligations.StoppedMachineDoesNotResume : Prop :=
  (∀ s : State, s.status = .halted → step s = .next s) ∧
  (∀ (s : State) (r : FaultRecord), s.status = .faulted r → step s = .fault (.aborted r))

/-- A fetch outside memory faults and leaves pc and IR unchanged (20_memory section 3, decisions D12 and D23, logs 11 and 21). -/
def Obligations.FetchOutsideMemoryFaults : Prop :=
  ∀ s : State, s.status = .running → s.atEnd = false → s.par.memSize < s.pc.toNat + 4 →
    Answers (step s) (Faults s (.outOfRange .fetch s.pc s.pc))

/-- A word with no handler: under `skip` one event with the word's own address is logged and nothing else changes but the fetch,
under `fault` the run faults with the post-increment pc (30_encoding section 6, 60_exceptions sections 1 and 2, decision D10,
log 9; 90 C9). The Faulted next state is decision D23, in the form of log 21 (DESIGN CHOICE). -/
def Obligations.UnknownWordIsLoggedOrFaults : Prop :=
  ∀ (s : State) (e : DecodeError), s.status = .running → s.atEnd = false → s.pc.toNat + 4 ≤ s.par.memSize →
    decodeWord s.par.opcodes (Memory.readWord s.mem s.pc.toNat) = .error e →
    (s.par.unknownPolicy = .skip → step s = .next { s with
      ir := Memory.readWord s.mem s.pc.toNat, pc := s.pc + 4,
      log := s.log ++ [{ addr := s.pc, word := Memory.readWord s.mem s.pc.toNat }] }) ∧
    (s.par.unknownPolicy = .fault → step s = .next { s with
      ir := Memory.readWord s.mem s.pc.toNat, pc := s.pc + 4,
      status := .faulted (.unknownInstruction (s.pc + 4) (Memory.readWord s.mem s.pc.toNat)) })

/-! ### Registers, arithmetic, compares (10_state, 40_alu, 41_compare) -/

/-- Register 0 always reads as zero and discards writes, of instructions and of the host's accessor; an instruction whose
destination is r0 still performs its access and its faults (10_state section 1). The fault of the last clause is decision D12
(log 11), in the form of log 21 (D23). -/
def Obligations.RegisterZeroIsHardwired : Prop :=
  (∀ s : State, s.reg 0 = 0) ∧
  (∀ (s : State) (v : Word), s.setReg 0 v = s ∧ s.hostSetReg 0 v = s) ∧
  (∀ (s : State) (a b : RegIx), exec (.add 0 a b) s = .next s) ∧
  (∀ (s : State) (a : RegIx) (imm : BitVec 16), s.par.memSize < (effectiveAddress (s.reg a) imm).toNat + 1 →
    Answers (exec (.ldb 0 imm a) s) (Faults s (.outOfRange .ldb s.pc (effectiveAddress (s.reg a) imm))))

/-- R141 to R146: each R-format arithmetic or logic instruction writes the stated value into C and changes nothing else. -/
def Obligations.RFormatArithmeticAndLogic : Prop :=
  ∀ (s : State) (c a b : RegIx),
    Answers (exec (.add c a b) s) (WritesReg s c (s.reg a + s.reg b)) ∧
    Answers (exec (.sub c a b) s) (WritesReg s c (s.reg a - s.reg b)) ∧
    Answers (exec (.and c a b) s) (WritesReg s c (s.reg a &&& s.reg b)) ∧
    Answers (exec (.or c a b) s) (WritesReg s c (s.reg a ||| s.reg b)) ∧
    Answers (exec (.xor c a b) s) (WritesReg s c (s.reg a ^^^ s.reg b)) ∧
    Answers (exec (.nor c a b) s) (WritesReg s c (~~~(s.reg a ||| s.reg b)))

/-- add, sub and addi deliver the low 32 bits of the exact result, the same pattern for a signed and an unsigned reading, and no
overflow is reported: status and log stay (40_alu section 1). That addi adds the sign-extended immediate is decision D5
(log 4). -/
def Obligations.ArithmeticIsExactModulo : Prop :=
  ∀ (s : State) (d a b : RegIx) (imm : BitVec 16), d ≠ 0 →
    Answers (exec (.add d a b) s) (fun t =>
      t.reg d = BitVec.ofNat 32 ((s.reg a).toNat + (s.reg b).toNat) ∧
      t.reg d = BitVec.ofInt 32 ((s.reg a).toInt + (s.reg b).toInt) ∧ t.status = s.status ∧ t.log = s.log) ∧
    Answers (exec (.sub d a b) s) (fun t =>
      t.reg d = BitVec.ofInt 32 ((s.reg a).toNat - (s.reg b).toNat) ∧
      t.reg d = BitVec.ofInt 32 ((s.reg a).toInt - (s.reg b).toInt) ∧ t.status = s.status ∧ t.log = s.log) ∧
    Answers (exec (.addi d a imm) s) (fun t =>
      t.reg d = BitVec.ofNat 32 ((s.reg a).toNat + (imm.signExtend 32).toNat) ∧
      t.reg d = BitVec.ofInt 32 ((s.reg a).toInt + imm.toInt) ∧ t.status = s.status ∧ t.log = s.log)

/-- The I-format arithmetic and logic instructions (40_alu section 3): sign-extended, zero-extended or high-half immediate by
decision D5 (log 4). -/
def Obligations.IFormatArithmeticAndLogic : Prop :=
  ∀ (s : State) (b a : RegIx) (imm : BitVec 16),
    Answers (exec (.addi b a imm) s) (WritesReg s b (s.reg a + imm.signExtend 32)) ∧
    Answers (exec (.andi b a imm) s) (WritesReg s b (s.reg a &&& imm.setWidth 32)) ∧
    Answers (exec (.andhi b a imm) s) (WritesReg s b (s.reg a &&& (imm.setWidth 32 <<< 16))) ∧
    Answers (exec (.ori b a imm) s) (WritesReg s b (s.reg a ||| imm.setWidth 32)) ∧
    Answers (exec (.orhi b a imm) s) (WritesReg s b (s.reg a ||| (imm.setWidth 32 <<< 16))) ∧
    Answers (exec (.xori b a imm) s) (WritesReg s b (s.reg a ^^^ imm.setWidth 32)) ∧
    Answers (exec (.xorhi b a imm) s) (WritesReg s b (s.reg a ^^^ (imm.setWidth 32 <<< 16)))

/-- R156, R157: the shift-immediates shift by IMM5 (0 to 31) and fill with zeros in both directions. -/
def Obligations.ImmediateShifts : Prop :=
  ∀ (s : State) (c a : RegIx) (n : BitVec 5),
    Answers (exec (.slli c a n) s) (WritesReg s c (BitVec.ofNat 32 ((s.reg a).toNat * 2 ^ n.toNat))) ∧
    Answers (exec (.srli c a n) s) (WritesReg s c (BitVec.ofNat 32 ((s.reg a).toNat / 2 ^ n.toNat)))

/-- The register shifts (40_alu section 4): by the low five bits of x[B], so by `x[B]` modulo 32, by decision D6 (log 5);
logical in both directions. -/
def Obligations.RegisterShifts : Prop :=
  ∀ (s : State) (c a b : RegIx),
    Answers (exec (.sll c a b) s)
      (WritesReg s c (BitVec.ofNat 32 ((s.reg a).toNat * 2 ^ ((s.reg b).toNat % 32)))) ∧
    Answers (exec (.srl c a b) s)
      (WritesReg s c (BitVec.ofNat 32 ((s.reg a).toNat / 2 ^ ((s.reg b).toNat % 32))))

/-- R170 to R173: each register compare writes 1 or 0 into C and changes nothing else; the order is the signed one. -/
def Obligations.RegisterCompares : Prop :=
  ∀ (s : State) (c a b : RegIx),
    Answers (exec (.cmpeq c a b) s) (WritesReg s c (if s.reg a = s.reg b then 1 else 0)) ∧
    Answers (exec (.cmpne c a b) s) (WritesReg s c (if s.reg a ≠ s.reg b then 1 else 0)) ∧
    Answers (exec (.cmpge c a b) s) (WritesReg s c (if (s.reg a).toInt ≥ (s.reg b).toInt then 1 else 0)) ∧
    Answers (exec (.cmplt c a b) s) (WritesReg s c (if (s.reg a).toInt < (s.reg b).toInt then 1 else 0))

/-- The immediate compares (41_compare section 2) against the sign-extended immediate, by decision D5 (log 4). -/
def Obligations.ImmediateCompares : Prop :=
  ∀ (s : State) (b a : RegIx) (imm : BitVec 16),
    Answers (exec (.cmpeqi b a imm) s) (WritesReg s b (if (s.reg a).toInt = imm.toInt then 1 else 0)) ∧
    Answers (exec (.cmpnei b a imm) s) (WritesReg s b (if (s.reg a).toInt ≠ imm.toInt then 1 else 0)) ∧
    Answers (exec (.cmpgei b a imm) s) (WritesReg s b (if (s.reg a).toInt ≥ imm.toInt then 1 else 0)) ∧
    Answers (exec (.cmplti b a imm) s) (WritesReg s b (if (s.reg a).toInt < imm.toInt then 1 else 0))

/-- `movia a, v` as its two instructions loads any 32-bit value exactly (30_encoding section 8; the immediates are log 4). -/
def Obligations.MoviaLoadsAnyValue : Prop :=
  ∀ (s : State) (a : RegIx) (v : Word),
    Answers (exec (.orhi a 0 (hiadj16 v)) s) (fun t =>
      Answers (exec (.addi a a (lo16 v)) t) (WritesReg s a v))

/-- The default expansion of `cmple a, b, c` assembles to one compare that writes whether b is at most c, signed (30_encoding
section 8, 90 C3, decision D31, log 31). -/
def Obligations.CmpleComparesLessOrEqual : Prop :=
  ∀ (s : State) (a b c : RegIx) (syms : Symbols) (k : Nat),
    ({ mnemonic := "cmple", operands := [.reg a, .reg b, .reg c] } : SourceInstr).expand .swapSources =
      some [{ mnemonic := "cmpge", operands := [.reg a, .reg c, .reg b] }] ∧
    ({ mnemonic := "cmpge", operands := [.reg a, .reg c, .reg b] } : SourceInstr).assemble syms k = .ok (.cmpge a c b) ∧
    Answers (exec (.cmpge a c b) s) (WritesReg s a (if (s.reg b).toInt ≤ (s.reg c).toInt then 1 else 0))

/-! ### Control transfer (42_control) -/

/-- A branch whose target is a multiple of 4 jumps to `pc + simm` if its condition holds and otherwise changes nothing; the
order is the signed one (42_control sections 1 and 2). The sign-extended immediate is decision D5 (log 4). -/
def Obligations.BranchesOnAlignedTargets : Prop :=
  ∀ (s : State) (a b : RegIx) (imm : BitVec 16), (s.pc + imm.signExtend 32).toNat % 4 = 0 →
    exec (.br imm) s = .next { s with pc := s.pc + imm.signExtend 32 } ∧
    exec (.beq a b imm) s =
      .next { s with pc := if s.reg a = s.reg b then s.pc + imm.signExtend 32 else s.pc } ∧
    exec (.bne a b imm) s =
      .next { s with pc := if s.reg a ≠ s.reg b then s.pc + imm.signExtend 32 else s.pc } ∧
    exec (.bge a b imm) s =
      .next { s with pc := if (s.reg a).toInt ≥ (s.reg b).toInt then s.pc + imm.signExtend 32 else s.pc } ∧
    exec (.blt a b imm) s =
      .next { s with pc := if (s.reg a).toInt < (s.reg b).toInt then s.pc + imm.signExtend 32 else s.pc }

/-- A branch to a target that is not a multiple of 4 faults with its name, the post-increment pc and the target: when taken, and
under BRANCH_ALIGN_CHECK = always also when not taken; under taken_only a branch not taken changes nothing (42_control
section 1, decisions D21, D23, D42, logs 19, 21, 37). -/
def Obligations.BranchesOnMisalignedTargets : Prop :=
  ∀ (s : State) (a b : RegIx) (imm : BitVec 16), (s.pc + imm.signExtend 32).toNat % 4 ≠ 0 →
    let faultOf := fun (site : FaultSite) (cond : Prop) (o : Result) =>
      (cond ∨ s.par.branchAlignCheck = .always →
        Answers o (Faults s (.misalignedAddress site s.pc (s.pc + imm.signExtend 32)))) ∧
      (¬ cond → s.par.branchAlignCheck = .takenOnly → o = .next s)
    faultOf .br True (exec (.br imm) s) ∧
    faultOf .beq (s.reg a = s.reg b) (exec (.beq a b imm) s) ∧
    faultOf .bne (s.reg a ≠ s.reg b) (exec (.bne a b imm) s) ∧
    faultOf .bge ((s.reg a).toInt ≥ (s.reg b).toInt) (exec (.bge a b imm) s) ∧
    faultOf .blt ((s.reg a).toInt < (s.reg b).toInt) (exec (.blt a b imm) s)

/-- With pc a multiple of 4, a branch target is misaligned exactly when the low two bits of IMM16 are not 0 (42_control
section 1). -/
def Obligations.BranchTargetMisalignedByImmediate : Prop :=
  ∀ (pc : Word) (imm : BitVec 16), pc.toNat % 4 = 0 →
    (misaligned (branchTarget pc imm) = true ↔ imm.toNat % 4 ≠ 0)

/-- A call to an address not in SYSCALLS writes the post-increment pc into r31 and goes to the target built from the top four
bits of that pc and IMM26 × 4, always a multiple of 4, so it raises no fault; nothing else changes (42_control section 3,
decisions D7 and D20, logs 6 and 18). -/
def Obligations.CallTransfersControl : Prop :=
  ∀ (s : State) (n : BitVec 26), s.syscallAt (callTarget s.pc n) = none →
    Answers (exec (.call n) s) (fun t =>
      (∀ r, t.reg r = if r = 31 then s.pc else s.reg r) ∧
      t.pc = BitVec.ofNat 32 (s.pc.toNat / 2 ^ 28 * 2 ^ 28 + n.toNat * 4) ∧ t.pc.toNat % 4 = 0 ∧
      (∀ x, Memory.read t.mem x = Memory.read s.mem x) ∧
      t = { s with regs := t.regs, pc := t.pc })

/-- A call to an address in SYSCALLS runs the host action with r31 already written and stays at the instruction after the call:
registers (r0 still 0) and memory are whatever the action leaves, canonical and inside MEM_SIZE, its outputs are appended,
and nothing else changes (42_control section 3, 60_exceptions section 4, decision D25). The action's effect is the free value
of log 23; nothing is claimed of its value. -/
def Obligations.SystemCallRunsHostAction : Prop :=
  ∀ (s : State) (n : BitVec 26) (e : SyscallEntry), s.syscallAt (callTarget s.pc n) = some e →
    Answers (exec (.call n) s) (fun t =>
      let eff := Config.syscallAction e.action s.draws (s.setReg 31 s.pc).regs s.mem
      (∀ r : RegIx, t.reg r = if r = 0 then 0 else eff.regs[r.toNat]'(r.isLt)) ∧
      t.mem = Memory.ofCells s.par.memSize eff.cells ∧ Memory.wf t.mem = true ∧
      Memory.within s.par.memSize t.mem = true ∧
      t.out = s.out ++ eff.out ∧ t.draws = s.draws + 1 ∧
      t = { s with regs := t.regs, mem := t.mem, out := t.out, draws := t.draws })

/-- `ret` puts r31 into pc, or faults where r31 is not a multiple of 4 (42_control section 3, decisions D7 and D22, 90 C2,
logs 6 and 20). The record's post-increment pc and the Faulted next state are decision D23 (60_exceptions sections 1 and 2),
in the form of log 21 (DESIGN CHOICE). -/
def Obligations.RetLoadsReturnAddress : Prop :=
  ∀ s : State,
    ((s.reg 31).toNat % 4 = 0 → exec .ret s = .next { s with pc := s.reg 31 }) ∧
    ((s.reg 31).toNat % 4 ≠ 0 → Answers (exec .ret s) (Faults s (.misalignedAddress .ret s.pc (s.reg 31))))

/-- A `ret` executed at the target of a guest call comes back to the instruction after the call, every other field being as the
call left it. -/
def Obligations.RetAfterCallReturns : Prop :=
  ∀ (s : State) (n : BitVec 26), s.pc.toNat % 4 = 0 → s.syscallAt (callTarget s.pc n) = none →
    Answers (exec (.call n) s) (fun t => exec .ret t = .next { t with pc := s.pc })

/-! ### Loads and stores (43_loadstore, 20_memory) -/

/-- `ldw` (43_loadstore section 2). The three cases exclude each other: misaligned, aligned but not wholly inside memory, aligned
and inside. OutOfRange is decision D12 (log 11), the order of the first two cases D24 (log 22), the record's pc and the Faulted
next state D23 (log 21). -/
def Obligations.LoadWord : Prop :=
  ∀ (s : State) (b a : RegIx) (imm : BitVec 16),
    let ea := effectiveAddress (s.reg a) imm
    (ea.toNat % 4 ≠ 0 → Answers (exec (.ldw b imm a) s) (Faults s (.misalignedAddress .ldw s.pc ea))) ∧
    (ea.toNat % 4 = 0 → s.par.memSize < ea.toNat + 4 →
      Answers (exec (.ldw b imm a) s) (Faults s (.outOfRange .ldw s.pc ea))) ∧
    (ea.toNat % 4 = 0 → ea.toNat + 4 ≤ s.par.memSize →
      Answers (exec (.ldw b imm a) s) (WritesReg s b
        (Memory.read s.mem (ea.toNat + 3) ++ Memory.read s.mem (ea.toNat + 2) ++ Memory.read s.mem (ea.toNat + 1) ++
          Memory.read s.mem ea.toNat)))

/-- `ldb` and `ldbu` (43_loadstore section 3): the byte at any address inside memory, sign- or zero-extended; outside,
OutOfRange, which is decision D12 (log 11), in the form of log 21 (D23). -/
def Obligations.LoadByte : Prop :=
  ∀ (s : State) (b a : RegIx) (imm : BitVec 16),
    let ea := effectiveAddress (s.reg a) imm
    (s.par.memSize < ea.toNat + 1 →
      Answers (exec (.ldb b imm a) s) (Faults s (.outOfRange .ldb s.pc ea)) ∧
      Answers (exec (.ldbu b imm a) s) (Faults s (.outOfRange .ldbu s.pc ea))) ∧
    (ea.toNat + 1 ≤ s.par.memSize →
      Answers (exec (.ldb b imm a) s) (WritesReg s b ((Memory.read s.mem ea.toNat).signExtend 32)) ∧
      Answers (exec (.ldbu b imm a) s) (WritesReg s b ((Memory.read s.mem ea.toNat).setWidth 32)))

/-- `stw` (43_loadstore section 2): no byte is written on a fault; otherwise the four bytes of x[B], least significant first, at
the effective address, and every other byte is unchanged. OutOfRange is decision D12 (log 11), the order of the first two cases
D24 (log 22), the form of the faults log 21 (D23). -/
def Obligations.StoreWord : Prop :=
  ∀ (s : State) (b a : RegIx) (imm : BitVec 16),
    let ea := effectiveAddress (s.reg a) imm
    (ea.toNat % 4 ≠ 0 → Answers (exec (.stw b imm a) s) (Faults s (.misalignedAddress .stw s.pc ea))) ∧
    (ea.toNat % 4 = 0 → s.par.memSize < ea.toNat + 4 →
      Answers (exec (.stw b imm a) s) (Faults s (.outOfRange .stw s.pc ea))) ∧
    (ea.toNat % 4 = 0 → ea.toNat + 4 ≤ s.par.memSize →
      Answers (exec (.stw b imm a) s) (WritesMem s ea.toNat
        [(s.reg b).extractLsb' 0 8, (s.reg b).extractLsb' 8 8, (s.reg b).extractLsb' 16 8, (s.reg b).extractLsb' 24 8]))

/-- `stb` (43_loadstore section 3): the low byte of x[B] at any address inside memory and no other byte; outside, OutOfRange with
no byte written, which is decision D12 (log 11), in the form of log 21 (D23). -/
def Obligations.StoreByte : Prop :=
  ∀ (s : State) (b a : RegIx) (imm : BitVec 16),
    let ea := effectiveAddress (s.reg a) imm
    (s.par.memSize < ea.toNat + 1 → Answers (exec (.stb b imm a) s) (Faults s (.outOfRange .stb s.pc ea))) ∧
    (ea.toNat + 1 ≤ s.par.memSize →
      Answers (exec (.stb b imm a) s) (WritesMem s ea.toNat [(s.reg b).extractLsb' 0 8]))

/-- A word access to an address that is not a multiple of 4 faults and moves no byte; a byte access never raises a
misaligned-address fault, at any address (20_memory section 3). The record's pc and the Faulted next state are log 21 (D23),
the OutOfRange alternative is decision D12 (log 11). -/
def Obligations.OnlyWordAccessesNeedAlignment : Prop :=
  ∀ (s : State) (b a : RegIx) (imm : BitVec 16),
    ((effectiveAddress (s.reg a) imm).toNat % 4 ≠ 0 →
      Answers (exec (.ldw b imm a) s) (Faults s (.misalignedAddress .ldw s.pc (effectiveAddress (s.reg a) imm))) ∧
      Answers (exec (.stw b imm a) s) (Faults s (.misalignedAddress .stw s.pc (effectiveAddress (s.reg a) imm)))) ∧
    (∀ i ∈ [Instr.ldb b imm a, Instr.ldbu b imm a, Instr.stb b imm a],
      Answers (exec i s) (fun t => t.status = s.status ∨
        ∃ site pc addr, t.status = .faulted (.outOfRange site pc addr)))

/-- A word stored is the word loaded back from the same address (20_memory sections 2 and 6). -/
def Obligations.StoredWordIsLoadedBack : Prop :=
  ∀ (s : State) (b a d : RegIx) (imm : BitVec 16),
    (effectiveAddress (s.reg a) imm).toNat % 4 = 0 → (effectiveAddress (s.reg a) imm).toNat + 4 ≤ s.par.memSize →
    Answers (exec (.stw b imm a) s) (fun t =>
      Answers (exec (.ldw d imm a) t) (WritesReg t d (s.reg b)))

/-- Mixed widths (20_memory section 3): after a word is stored, byte k of it is read at its address plus k. -/
def Obligations.BytesOfAStoredWord : Prop :=
  ∀ (s : State) (b a d e : RegIx) (imm : BitVec 16) (k : Nat), k < 4 →
    (effectiveAddress (s.reg a) imm).toNat % 4 = 0 → (effectiveAddress (s.reg a) imm).toNat + 4 ≤ s.par.memSize →
    (s.reg e).toNat = (effectiveAddress (s.reg a) imm).toNat + k →
    Answers (exec (.stw b imm a) s) (fun t =>
      Answers (exec (.ldbu d 0 e) t) (WritesReg t d (((s.reg b).extractLsb' (8 * k) 8).setWidth 32)))

/-- Mixed widths (20_memory section 3): a byte stored inside a word replaces that byte of the word and no other. -/
def Obligations.ByteStoredInsideAWord : Prop :=
  ∀ (m : Memory) (a k j : Nat) (c : Byte), k < 4 → j < 4 →
    (Memory.readWord (Memory.write m (a + k) c) a).extractLsb' (8 * j) 8 =
      if j = k then c else (Memory.readWord m a).extractLsb' (8 * j) 8

/-- Self-modifying code with JIT off (20_memory section 6, decision D29, log 27): a word stored where the next fetch reads is the
word fetched, the fetch being little-endian like the store by decision D13 (log 12). -/
def Obligations.FetchSeesTheStoredWord : Prop :=
  ∀ (s : State) (b a : RegIx) (imm : BitVec 16),
    (effectiveAddress (s.reg a) imm).toNat % 4 = 0 → (effectiveAddress (s.reg a) imm).toNat + 4 ≤ s.par.memSize →
    Answers (exec (.stw b imm a) s) (fun t =>
      (t.jump (effectiveAddress (s.reg a) imm)).fetch =
        .ok { t with ir := s.reg b, pc := effectiveAddress (s.reg a) imm + 4 })

/-! ### Whole-machine rules -/

/-- Every instruction answers a next state in every state: no meaning stops the machine. That one which faults does so too, with
the status Faulted, is the model's form of a fault (log 21, DESIGN CHOICE; decision D23). -/
def Obligations.EveryInstructionAnswersNext : Prop :=
  ∀ (i : Instr) (s : State), ∃ t, exec i s = .next t

/-- A step stops the machine only where an earlier step has faulted, and refuses nothing (60_exceptions section 2, log 21). -/
def Obligations.StepStopsOnlyAfterAFault : Prop :=
  ∀ s : State, (∃ t, step s = .next t ∧ ∀ r, s.status ≠ .faulted r) ∨
    ∃ r, s.status = .faulted r ∧ step s = .fault (.aborted r)

/-- Faults are precise (60_exceptions section 2, decision D23, log 21): an instruction that changes the status raises one fault
and changes nothing else, and the record holds the post-increment pc. OutOfRange is decision D12 (log 11). -/
def Obligations.FaultingInstructionChangesOnlyStatus : Prop :=
  ∀ (i : Instr) (s t : State), exec i s = .next t → t.status ≠ s.status →
    ∃ site addr, (Faults s (.misalignedAddress site s.pc addr) t ∧ addr.toNat % 4 ≠ 0) ∨
      (Faults s (.outOfRange site s.pc addr) t ∧ s.par.memSize < addr.toNat + 4)

/-- No instruction but a system call writes a register other than its destination (10_state section 1). -/
def Obligations.OnlyTheDestinationRegisterChanges : Prop :=
  ∀ (i : Instr) (s t : State) (r : RegIx), exec i s = .next t → s.callsHost i = false →
    i.dest ≠ some r → t.reg r = s.reg r

/-- What an instruction of a running machine other than a system call does depends on no register but those it reads (10_state
section 1): two states that agree on them and on everything else get the same pc, memory, status and log, and, unless the
instruction faults, the same destination value. -/
def Obligations.ResultDependsOnSourceRegisters : Prop :=
  ∀ (i : Instr) (s : State) (regs' : Vector Word 32) (t t' : State),
    s.status = .running → s.callsHost i = false →
    (∀ r ∈ i.sources, ({ s with regs := regs' } : State).reg r = s.reg r) →
    exec i s = .next t → exec i { s with regs := regs' } = .next t' →
    t'.pc = t.pc ∧ t'.mem = t.mem ∧ t'.status = t.status ∧ t'.log = t.log ∧
    (t.status = .running → ∀ r, i.dest = some r → t'.reg r = t.reg r)

/-- Only stores and system calls change memory (20_memory section 1). -/
def Obligations.OnlyStoresAndSystemCallsChangeMemory : Prop :=
  ∀ (i : Instr) (s t : State), exec i s = .next t → i.isStore = false → s.callsHost i = false → t.mem = s.mem

/-- Every instruction that is no branch, call or return leaves pc at the post-increment value (10_state section 2). -/
def Obligations.OnlyControlTransfersChangePc : Prop :=
  ∀ (i : Instr) (s t : State), exec i s = .next t → i.transfersControl = false → t.pc = s.pc

/-- No step changes what only the host sets: the parameters, SYSCALLS and the loaded program (70 section 5). -/
def Obligations.StepKeepsHostSettings : Prop :=
  ∀ s t : State, step s = .next t → t.par = s.par ∧ t.syscalls = s.syscalls ∧ t.program = s.program

/-- A step leaves the log, or appends one event: the address stepped from, and a word that decodes to nothing (30_encoding
section 6, 90 C9). -/
def Obligations.LogGrowsOnlyByUnknownWords : Prop :=
  ∀ s t : State, step s = .next t → t.log = s.log ∨
    ∃ w, t.log = s.log ++ [{ addr := s.pc, word := w }] ∧ t.ir = w ∧ ∃ e, decodeWord s.par.opcodes w = .error e

/-! ### The host's interface and the assembler (70 sections 1 and 5, 30_encoding section 8) -/

/-- What `loadProgram` and `restartProgram` leave, from every state, Halted and Faulted ones too (70 section 1, 10_state section 5,
decisions D14 to D18 and D36, logs 13 to 16 and 36): a load of `p` all that the first list says, and a restart the same for the
program the state holds. That the outputs and the count of draws stay is the model's choice (log 44). -/
def Obligations.LoadProgramState : Prop :=
  (∀ (s : State) (p : Program) (memInit : List Host.Cell),
    (∀ r, (s.loadProgram p memInit).reg r = 0) ∧
    (s.loadProgram p memInit).pc = p.entryPoint ∧ (s.loadProgram p memInit).ir = 0 ∧
    (s.loadProgram p memInit).status = .running ∧ (s.loadProgram p memInit).log = [] ∧
    (s.loadProgram p memInit).syscalls = s.syscalls ∧ (s.loadProgram p memInit).par = s.par ∧
    (s.loadProgram p memInit).program = p ∧
    (s.loadProgram p memInit).out = s.out ∧ (s.loadProgram p memInit).draws = s.draws) ∧
  (∀ (t : State) (memInit : List Host.Cell),
    (∀ r, (t.restartProgram memInit).reg r = 0) ∧
    (t.restartProgram memInit).pc = t.program.entryPoint ∧ (t.restartProgram memInit).ir = 0 ∧
    (t.restartProgram memInit).status = .running ∧ (t.restartProgram memInit).log = [] ∧
    (t.restartProgram memInit).syscalls = t.syscalls ∧ (t.restartProgram memInit).par = t.par ∧
    (t.restartProgram memInit).program = t.program ∧
    (∀ s : State, s.par = t.par → (t.restartProgram memInit).mem = (s.loadProgram t.program memInit).mem) ∧
    t.restartProgram memInit = t.loadProgram t.program memInit) ∧
  (∀ (s : State) (p : Program) (memInit : List Host.Cell),
    (s.loadProgram p memInit).restartProgram memInit = s.loadProgram p memInit)

/-- After `loadProgram` the image stands at address 0, and every byte above it is what the draw MEM_INIT gives (70 section 1,
decisions D14 and D15, logs 13 and 14). -/
def Obligations.LoadedImageStandsAtZero : Prop :=
  ∀ (s : State) (p : Program) (memInit : List Host.Cell) (k : Nat), k < s.par.memSize →
    Memory.read (s.loadProgram p memInit).mem k =
      if h : k < p.image.length then p.image[k] else Memory.read (Memory.ofCells s.par.memSize memInit) k

/-- Every canonical memory inside the size is described by some cells, so the draws of MEM_INIT and of a host action leave no
memory out (60_exceptions section 4, 93 section 1; logs 14 and 23). -/
def Obligations.EveryMemoryIsAdmitted : Prop :=
  ∀ (size : Nat) (m : Memory), Memory.wf m = true → Memory.within size m = true → Memory.ofCells size m = m

/-- A branch assembled to a label of the text lands on it, if it is within reach (30_encoding section 8): the offset
`4j - (k + 1) * 4` from index k brings the post-increment pc of instruction k to 4j. The sign-extended immediate is decision D5 (log 4). -/
def Obligations.AssembledBranchLandsOnLabel : Prop :=
  ∀ (syms : Symbols) (name : String) (k j : Nat), Symbols.lookup syms name = some (4 * j) →
    (-32768 : Int) ≤ 4 * (j : Int) - ((k : Int) + 1) * 4 → 4 * (j : Int) - ((k : Int) + 1) * 4 ≤ 32767 →
    Expr.branchOffset syms k (.atom (.sym name)) = some (4 * (j : Int) - ((k : Int) + 1) * 4) ∧
    branchTarget (BitVec.ofNat 32 (4 * k + 4)) (imm16OfInt (4 * (j : Int) - ((k : Int) + 1) * 4)) =
      BitVec.ofNat 32 (4 * j)

/-- A call assembled to a target that is a multiple of 4 in the 256 MiB region of the calling pc reaches it (30_encoding
section 8, 42_control section 3). -/
def Obligations.AssembledCallReachesTarget : Prop :=
  ∀ pc t : Word, t.toNat % 4 = 0 → t.toNat / 2 ^ 28 = pc.toNat / 2 ^ 28 →
    callTarget pc (imm26OfTarget (t.toNat : Int)) = t

/-! ### The tables of opcode values (30_encoding section 4) -/

/-- In a well-formed table no word has two rows: no two R-format rows accept one extended opcode, no two I-format rows share an
opcode or have the R- or J-format's, and those two differ (30_encoding section 4; masks log 8). -/
def Obligations.OpcodeTableIsUnambiguous : Prop :=
  ∀ v : OpcodeValues, v.wellFormed = true →
    (∀ (opx : BitVec 11) (j k : Nat) (hj : j < (rRows v).length) (hk : k < (rRows v).length),
      (rRows v)[j].accepts opx = true → (rRows v)[k].accepts opx = true → j = k) ∧
    (∀ (op : BitVec 6) (j k : Nat) (hj : j < (iRows v).length) (hk : k < (iRows v).length),
      (iRows v)[j].op = op → (iRows v)[k].op = op → j = k ∧ op ≠ v.rType ∧ op ≠ v.call) ∧
    v.rType ≠ v.call

/-! ### From a load to the invariant (70 section 1, 10_state section 2) -/

/-- Loading a well-formed program meets the machine's invariant, so every state of its run does (StepKeepsInvariant); the whole
image stands in memory, and the text ends inside it (70 section 1, 10_state section 2, decisions D11, D14, D15, D18, logs 10,
13, 14, 16). -/
def Obligations.LoadedProgramMeetsInvariant : Prop :=
  ∀ (s : State) (p : Program) (memInit : List Host.Cell), p.wellFormed s.par.memSize = true →
    (s.loadProgram p memInit).Inv ∧
    (∀ k (h : k < p.image.length), Memory.read (s.loadProgram p memInit).mem k = p.image[k]) ∧
    (s.loadProgram p memInit).programEnd ≤ s.par.memSize
end

