-- ==== Sys2Proof/Laws/Encoding.lean ====
section
/-! SUPPORT. The codec: the fields of a packed word, the words of the encoder in packed form, the dispatch tables, and that
every instruction is well-formed. -/

namespace Sys2Proof

/-! ### The fields of a packed word (R81, R83, R85) -/

@[simp] theorem opOf_packI (a b : RegIx) (imm : BitVec 16) (op : BitVec 6) : opOf (packI a b imm op) = op := by
  apply BitVec.eq_of_getLsbD_eq
  intro i hi
  simp only [opOf, packI, BitVec.getLsbD_extractLsb', BitVec.getLsbD_append]
  simp [hi]

@[simp] theorem imm16Of_packI (a b : RegIx) (imm : BitVec 16) (op : BitVec 6) : imm16Of (packI a b imm op) = imm := by
  apply BitVec.eq_of_getLsbD_eq
  intro i hi
  simp only [imm16Of, packI, BitVec.getLsbD_extractLsb', BitVec.getLsbD_append]
  simp [hi, show ¬ (6 + i < 6) by omega, show 6 + i - 6 = i by omega]

@[simp] theorem bOf_packI (a b : RegIx) (imm : BitVec 16) (op : BitVec 6) : bOf (packI a b imm op) = b := by
  apply BitVec.eq_of_getLsbD_eq
  intro i hi
  simp only [bOf, packI, BitVec.getLsbD_extractLsb', BitVec.getLsbD_append]
  simp [hi, show ¬ (22 + i < 6) by omega, show ¬ (22 + i - 6 < 16) by omega, show 22 + i - 6 - 16 = i by omega]

@[simp] theorem aOf_packI (a b : RegIx) (imm : BitVec 16) (op : BitVec 6) : aOf (packI a b imm op) = a := by
  apply BitVec.eq_of_getLsbD_eq
  intro i hi
  simp only [aOf, packI, BitVec.getLsbD_extractLsb', BitVec.getLsbD_append]
  simp [hi, show ¬ (27 + i < 6) by omega, show ¬ (27 + i - 6 < 16) by omega, show ¬ (27 + i - 6 - 16 < 5) by omega, show 27 + i - 6 - 16 - 5 = i by omega]

@[simp] theorem opOf_packR (a b c : RegIx) (opx : BitVec 11) (op : BitVec 6) : opOf (packR a b c opx op) = op := by
  apply BitVec.eq_of_getLsbD_eq
  intro i hi
  simp only [opOf, packR, BitVec.getLsbD_extractLsb', BitVec.getLsbD_append]
  simp [hi]

@[simp] theorem opxOf_packR (a b c : RegIx) (opx : BitVec 11) (op : BitVec 6) : opxOf (packR a b c opx op) = opx := by
  apply BitVec.eq_of_getLsbD_eq
  intro i hi
  simp only [opxOf, packR, BitVec.getLsbD_extractLsb', BitVec.getLsbD_append]
  simp [hi, show ¬ (6 + i < 6) by omega, show 6 + i - 6 = i by omega]

@[simp] theorem cOf_packR (a b c : RegIx) (opx : BitVec 11) (op : BitVec 6) : cOf (packR a b c opx op) = c := by
  apply BitVec.eq_of_getLsbD_eq
  intro i hi
  simp only [cOf, packR, BitVec.getLsbD_extractLsb', BitVec.getLsbD_append]
  simp [hi, show ¬ (17 + i < 6) by omega, show ¬ (17 + i - 6 < 11) by omega, show 17 + i - 6 - 11 = i by omega]

@[simp] theorem bOf_packR (a b c : RegIx) (opx : BitVec 11) (op : BitVec 6) : bOf (packR a b c opx op) = b := by
  apply BitVec.eq_of_getLsbD_eq
  intro i hi
  simp only [bOf, packR, BitVec.getLsbD_extractLsb', BitVec.getLsbD_append]
  simp [hi, show ¬ (22 + i < 6) by omega, show ¬ (22 + i - 6 < 11) by omega, show ¬ (22 + i - 6 - 11 < 5) by omega, show 22 + i - 6 - 11 - 5 = i by omega]

@[simp] theorem aOf_packR (a b c : RegIx) (opx : BitVec 11) (op : BitVec 6) : aOf (packR a b c opx op) = a := by
  apply BitVec.eq_of_getLsbD_eq
  intro i hi
  simp only [aOf, packR, BitVec.getLsbD_extractLsb', BitVec.getLsbD_append]
  simp [hi, show ¬ (27 + i < 6) by omega, show ¬ (27 + i - 6 < 11) by omega, show ¬ (27 + i - 6 - 11 < 5) by omega, show ¬ (27 + i - 6 - 11 - 5 < 5) by omega, show 27 + i - 6 - 11 - 5 - 5 = i by omega]

@[simp] theorem opOf_packJ (imm : BitVec 26) (op : BitVec 6) : opOf (packJ imm op) = op := by
  apply BitVec.eq_of_getLsbD_eq
  intro i hi
  simp only [opOf, packJ, BitVec.getLsbD_extractLsb', BitVec.getLsbD_append]
  simp [hi]

@[simp] theorem imm26Of_packJ (imm : BitVec 26) (op : BitVec 6) : imm26Of (packJ imm op) = imm := by
  apply BitVec.eq_of_getLsbD_eq
  intro i hi
  simp only [imm26Of, packJ, BitVec.getLsbD_extractLsb', BitVec.getLsbD_append]
  simp [hi, show ¬ (6 + i < 6) by omega, show 6 + i - 6 = i by omega]

/-- The shift amount stands in the low five bits of the extended opcode (R84). -/
theorem imm5Of_eq_opxOf (w : Word) : imm5Of w = (opxOf w).extractLsb' 0 5 := by
  apply BitVec.eq_of_getLsbD_eq
  intro i hi
  simp only [imm5Of, opxOf, BitVec.getLsbD_extractLsb']
  simp [hi, show i < 11 by omega]

/-! ### The encoder in packed form (R88) -/

theorem encode_rawI (op : BitVec 6) (b a : RegIx) (imm : BitVec 16) :
    (rawI op b a imm).encode = packI a b imm op := by
  simp [rawI, RawInstr.encode, encodeI]

theorem encode_rawR (rType : BitVec 6) (opx : BitVec 11) (c a b : RegIx) :
    (rawR rType opx c a b).encode = packR a b c opx rType := by
  simp [rawR, RawInstr.encode, encodeR]

theorem encode_rawJ (op : BitVec 6) (imm : BitVec 26) : (rawJ op imm).encode = packJ imm op := by
  simp [rawJ, RawInstr.encode, encodeJ]

/-! ### Well-formedness -/

theorem rawI_wellFormed (op : BitVec 6) (b a : RegIx) (imm : BitVec 16) : (rawI op b a imm).wellFormed = true := by
  have h1 := op.isLt; have h2 := a.isLt; have h3 := b.isLt; have h4 := imm.isLt
  simp [rawI, RawInstr.wellFormed, IFields.wellFormed]; omega

theorem rawR_wellFormed (rType : BitVec 6) (opx : BitVec 11) (c a b : RegIx) :
    (rawR rType opx c a b).wellFormed = true := by
  have h1 := opx.isLt; have h2 := a.isLt; have h3 := b.isLt; have h4 := c.isLt
  have h5 := rType.isLt
  simp [rawR, RawInstr.wellFormed, RFields.wellFormed]; omega

theorem rawJ_wellFormed (op : BitVec 6) (imm : BitVec 26) : (rawJ op imm).wellFormed = true := by
  have h1 := op.isLt; have h2 := imm.isLt
  simp [rawJ, RawInstr.wellFormed, JFields.wellFormed]; omega

/-- Every instruction is well-formed: its operands have the widths of their fields. -/
theorem Instr.wellFormed_all (v : OpcodeValues) (i : Instr) : i.wellFormed v = true := by
  cases i <;> first | exact rawI_wellFormed _ _ _ _ | exact rawR_wellFormed _ _ _ _ _ | exact rawJ_wellFormed _ _

/-! ### The tables (R95: at most one row matches any word) -/

/-- The default table is well-formed. -/
theorem OpcodeValues.specDefault_wellFormed : OpcodeValues.specDefault.wellFormed = true := by decide

theorem OpcodeValues.primary_nodup {v : OpcodeValues} (h : v.wellFormed = true) : v.primary.Nodup := by
  simp only [OpcodeValues.wellFormed, Bool.and_eq_true, decide_eq_true_eq] at h; exact h.1

theorem OpcodeValues.extended_nodup {v : OpcodeValues} (h : v.wellFormed = true) : v.extended.Nodup := by
  simp only [OpcodeValues.wellFormed, Bool.and_eq_true, decide_eq_true_eq] at h; exact h.2

/-- The primary opcodes are the R-format's, the J-format's and those of the I-format rows. -/
theorem OpcodeValues.primary_eq (v : OpcodeValues) : v.primary = v.rType :: v.call :: (iRows v).map IRow.op := rfl

/-- The extended opcodes are those of the R-format rows. -/
theorem OpcodeValues.extended_eq (v : OpcodeValues) :
    (rRows v).map RRow.opx = v.extended.map opxOfSix := rfl

/-- Every mask is one of R95's two. -/
theorem rRows_masks (v : OpcodeValues) : ∀ r ∈ rRows v, r.mask = opxShiftMask ∨ r.mask = opxFullMask := by
  simp [rRows]

/-- The value of `OPX[10:5]` comes back from the extended opcode. -/
@[simp] theorem extractLsb'_opxOfSix (x : BitVec 6) : (opxOfSix x).extractLsb' 5 6 = x := by
  apply BitVec.eq_of_getLsbD_eq
  intro i hi
  simp only [opxOfSix, BitVec.getLsbD_extractLsb', BitVec.getLsbD_append]
  simp [hi]

theorem opxOfSix_injective : Function.Injective opxOfSix := fun x y h => by
  rw [← extractLsb'_opxOfSix x, h, extractLsb'_opxOfSix]

/-- In a list without repeated keys, the first row with a row's key is that row. -/
theorem find?_key_eq {α β : Type} [DecidableEq β] (key : α → β) {l : List α} (hn : (l.map key).Nodup) {r : α} (hr : r ∈ l) :
    l.find? (fun x => key x == key r) = some r := by
  induction l with
  | nil => cases hr
  | cons x t ih =>
    simp only [List.map_cons, List.nodup_cons] at hn
    rcases List.mem_cons.mp hr with rfl | hr
    · simp
    · have : key x ≠ key r := fun h => hn.1 (h ▸ List.mem_map_of_mem hr)
      simp [this, ih hn.2 hr]

/-- A row accepts only extended opcodes with its own `OPX[10:5]` (R95: both masks cover it). -/
theorem RRow.accepts_six {v : OpcodeValues} {r : RRow} (hr : r ∈ rRows v) {opx : BitVec 11} (h : r.accepts opx = true) :
    opx.extractLsb' 5 6 = r.opx.extractLsb' 5 6 := by
  have h' : opx &&& r.mask = r.opx := by simpa [RRow.accepts] using h
  rw [← h']
  apply BitVec.eq_of_getLsbD_eq
  intro i hi
  rcases rRows_masks v r hr with hm | hm <;> rw [hm] <;>
    simp only [BitVec.getLsbD_extractLsb', BitVec.getLsbD_and, opxShiftMask, opxFullMask] <;>
    interval_cases i <;> simp

/-- Two R-format rows of a well-formed table with one `OPX[10:5]` are the same row. -/
theorem rRows_eq_of_six {v : OpcodeValues} (h : v.wellFormed = true) {r s : RRow} (hr : r ∈ rRows v) (hs : s ∈ rRows v)
    (he : r.opx.extractLsb' 5 6 = s.opx.extractLsb' 5 6) : r = s := by
  have hm : (rRows v).map (fun r => r.opx.extractLsb' 5 6) = v.extended := by
    have := congrArg (List.map (fun x : BitVec 11 => x.extractLsb' 5 6)) v.extended_eq
    simpa [Function.comp_def] using this
  exact List.inj_on_of_nodup_map (hm ▸ OpcodeValues.extended_nodup h) hr hs he

/-- The first row that passes a test only one row passes is that row. -/
theorem find?_eq_of_unique {α : Type} {l : List α} {p : α → Bool} {r : α} (hr : r ∈ l) (hp : p r = true)
    (hu : ∀ s ∈ l, p s = true → s = r) : l.find? p = some r := by
  cases h : l.find? p with
  | none => exact absurd hp (by simpa using List.find?_eq_none.mp h r hr)
  | some s => rw [hu s (List.mem_of_find?_eq_some h) (List.find?_some h)]

/-- A three-register row accepts its own extended opcode. -/
theorem RRow.accepts_full (x : BitVec 6) (f : RegIx → RegIx → RegIx → BitVec 5 → Instr) :
    (⟨opxOfSix x, opxFullMask, f⟩ : RRow).accepts (opxOfSix x) = true := by
  simp only [RRow.accepts, beq_iff_eq, opxFullMask]
  apply BitVec.eq_of_getLsbD_eq
  intro i hi
  simp only [BitVec.getLsbD_and]
  interval_cases i <;> simp

/-- A shift-immediate row accepts its extended opcode with any shift amount (R95). -/
theorem RRow.accepts_shift (x : BitVec 6) (n : BitVec 5) (f : RegIx → RegIx → RegIx → BitVec 5 → Instr) :
    (⟨opxOfSix x, opxShiftMask, f⟩ : RRow).accepts (opxOfSix x ||| n.setWidth 11) = true := by
  simp only [RRow.accepts, beq_iff_eq, opxShiftMask, opxOfSix]
  apply BitVec.eq_of_getLsbD_eq
  intro i hi
  simp only [BitVec.getLsbD_and, BitVec.getLsbD_or, BitVec.getLsbD_append, BitVec.getLsbD_setWidth]
  interval_cases i <;> simp

/-- The shift amount comes back from the extended opcode (R84). -/
@[simp] theorem extractLsb'_opx_amount (x : BitVec 6) (n : BitVec 5) :
    (opxOfSix x ||| n.setWidth 11).extractLsb' 0 5 = n := by
  apply BitVec.eq_of_getLsbD_eq
  intro i hi
  simp only [opxOfSix, BitVec.getLsbD_extractLsb', BitVec.getLsbD_or, BitVec.getLsbD_append, BitVec.getLsbD_setWidth]
  interval_cases i <;> simp

/-! ### Dispatch by a well-formed table -/

/-- A packed I-format word with a row's opcode is that row's instruction. -/
theorem decodeWord_packI {v : OpcodeValues} (h : v.wellFormed = true) {r : IRow} (hr : r ∈ iRows v) (b a : RegIx)
    (imm : BitVec 16) : decodeWord v (packI a b imm r.op) = .ok (r.instr b a imm) := by
  have hn := OpcodeValues.primary_nodup h
  rw [OpcodeValues.primary_eq] at hn
  have hm : r.op ∈ (iRows v).map IRow.op := List.mem_map_of_mem hr
  have h1 : r.op ≠ v.rType := fun e => (List.nodup_cons.mp hn).1 (e ▸ List.mem_cons_of_mem _ hm)
  have h2 : r.op ≠ v.call := fun e => (List.nodup_cons.mp (List.nodup_cons.mp hn).2).1 (e ▸ hm)
  have h3 := find?_key_eq IRow.op (List.nodup_cons.mp (List.nodup_cons.mp hn).2).2 hr
  simp [decodeWord, h1, h2, h3]

/-- A packed R-format word whose extended opcode a row accepts is that row's instruction. -/
theorem decodeWord_packR {v : OpcodeValues} (h : v.wellFormed = true) {r : RRow} (hr : r ∈ rRows v) (c a b : RegIx)
    {opx : BitVec 11} (ha : r.accepts opx = true) :
    decodeWord v (packR a b c opx v.rType) = .ok (r.instr c a b (opx.extractLsb' 0 5)) := by
  have hf : (rRows v).find? (fun r => r.accepts opx) = some r :=
    find?_eq_of_unique hr ha fun s hs hp =>
      rRows_eq_of_six h hs hr ((RRow.accepts_six hs hp).symm.trans (RRow.accepts_six hr ha))
  simp [decodeWord, hf, imm5Of_eq_opxOf]

/-- A packed J-format word with the J-format's opcode is a call. -/
theorem decodeWord_packJ {v : OpcodeValues} (h : v.wellFormed = true) (n : BitVec 26) :
    decodeWord v (packJ n v.call) = .ok (.call n) := by
  have h1 : v.call ≠ v.rType := fun e => (List.nodup_cons.mp (OpcodeValues.primary_nodup h)).1 (by simp [← e])
  simp [decodeWord, h1]

end Sys2Proof
end

