-- ==== Sys2Proof/Laws/State.lean ====
section
/-! SUPPORT. What each update of the state does to each field, so that no later proof unfolds a record update. -/

namespace Sys2Proof.Machine

@[simp] theorem State.setReg_pc (s : State) (i : RegIx) (v : Word) : (s.setReg i v).pc = s.pc := by
  unfold State.setReg; split <;> rfl

@[simp] theorem State.setReg_ir (s : State) (i : RegIx) (v : Word) : (s.setReg i v).ir = s.ir := by
  unfold State.setReg; split <;> rfl

@[simp] theorem State.setReg_mem (s : State) (i : RegIx) (v : Word) : (s.setReg i v).mem = s.mem := by
  unfold State.setReg; split <;> rfl

@[simp] theorem State.setReg_status (s : State) (i : RegIx) (v : Word) : (s.setReg i v).status = s.status := by
  unfold State.setReg; split <;> rfl

@[simp] theorem State.setReg_log (s : State) (i : RegIx) (v : Word) : (s.setReg i v).log = s.log := by
  unfold State.setReg; split <;> rfl

@[simp] theorem State.setReg_syscalls (s : State) (i : RegIx) (v : Word) : (s.setReg i v).syscalls = s.syscalls := by
  unfold State.setReg; split <;> rfl

@[simp] theorem State.setReg_program (s : State) (i : RegIx) (v : Word) : (s.setReg i v).program = s.program := by
  unfold State.setReg; split <;> rfl

@[simp] theorem State.setReg_par (s : State) (i : RegIx) (v : Word) : (s.setReg i v).par = s.par := by
  unfold State.setReg; split <;> rfl

@[simp] theorem State.setReg_out (s : State) (i : RegIx) (v : Word) : (s.setReg i v).out = s.out := by
  unfold State.setReg; split <;> rfl

@[simp] theorem State.setReg_draws (s : State) (i : RegIx) (v : Word) : (s.setReg i v).draws = s.draws := by
  unfold State.setReg; split <;> rfl

@[simp] theorem State.jump_regs (s : State) (t : Word) : (s.jump t).regs = s.regs := rfl

@[simp] theorem State.jump_pc (s : State) (t : Word) : (s.jump t).pc = t := rfl

@[simp] theorem State.jump_ir (s : State) (t : Word) : (s.jump t).ir = s.ir := rfl

@[simp] theorem State.jump_mem (s : State) (t : Word) : (s.jump t).mem = s.mem := rfl

@[simp] theorem State.jump_status (s : State) (t : Word) : (s.jump t).status = s.status := rfl

@[simp] theorem State.jump_log (s : State) (t : Word) : (s.jump t).log = s.log := rfl

@[simp] theorem State.jump_syscalls (s : State) (t : Word) : (s.jump t).syscalls = s.syscalls := rfl

@[simp] theorem State.jump_program (s : State) (t : Word) : (s.jump t).program = s.program := rfl

@[simp] theorem State.jump_par (s : State) (t : Word) : (s.jump t).par = s.par := rfl

@[simp] theorem State.jump_out (s : State) (t : Word) : (s.jump t).out = s.out := rfl

@[simp] theorem State.jump_draws (s : State) (t : Word) : (s.jump t).draws = s.draws := rfl

@[simp] theorem State.raise_regs (s : State) (r : FaultRecord) : (s.raise r).regs = s.regs := rfl

@[simp] theorem State.raise_pc (s : State) (r : FaultRecord) : (s.raise r).pc = s.pc := rfl

@[simp] theorem State.raise_ir (s : State) (r : FaultRecord) : (s.raise r).ir = s.ir := rfl

@[simp] theorem State.raise_mem (s : State) (r : FaultRecord) : (s.raise r).mem = s.mem := rfl

@[simp] theorem State.raise_status (s : State) (r : FaultRecord) : (s.raise r).status = .faulted r := rfl

@[simp] theorem State.raise_log (s : State) (r : FaultRecord) : (s.raise r).log = s.log := rfl

@[simp] theorem State.raise_syscalls (s : State) (r : FaultRecord) : (s.raise r).syscalls = s.syscalls := rfl

@[simp] theorem State.raise_program (s : State) (r : FaultRecord) : (s.raise r).program = s.program := rfl

@[simp] theorem State.raise_par (s : State) (r : FaultRecord) : (s.raise r).par = s.par := rfl

@[simp] theorem State.raise_out (s : State) (r : FaultRecord) : (s.raise r).out = s.out := rfl

@[simp] theorem State.raise_draws (s : State) (r : FaultRecord) : (s.raise r).draws = s.draws := rfl

@[simp] theorem State.applySyscall_regs (s : State) (e : SyscallEffect) : (s.applySyscall e).regs = e.regs.set 0 0 := rfl

@[simp] theorem State.applySyscall_pc (s : State) (e : SyscallEffect) : (s.applySyscall e).pc = s.pc := rfl

@[simp] theorem State.applySyscall_ir (s : State) (e : SyscallEffect) : (s.applySyscall e).ir = s.ir := rfl

@[simp] theorem State.applySyscall_mem (s : State) (e : SyscallEffect) : (s.applySyscall e).mem = Memory.ofCells s.par.memSize e.cells := rfl

@[simp] theorem State.applySyscall_status (s : State) (e : SyscallEffect) : (s.applySyscall e).status = s.status := rfl

@[simp] theorem State.applySyscall_log (s : State) (e : SyscallEffect) : (s.applySyscall e).log = s.log := rfl

@[simp] theorem State.applySyscall_syscalls (s : State) (e : SyscallEffect) : (s.applySyscall e).syscalls = s.syscalls := rfl

@[simp] theorem State.applySyscall_program (s : State) (e : SyscallEffect) : (s.applySyscall e).program = s.program := rfl

@[simp] theorem State.applySyscall_par (s : State) (e : SyscallEffect) : (s.applySyscall e).par = s.par := rfl

@[simp] theorem State.applySyscall_out (s : State) (e : SyscallEffect) : (s.applySyscall e).out = s.out ++ e.out := rfl

@[simp] theorem State.applySyscall_draws (s : State) (e : SyscallEffect) : (s.applySyscall e).draws = s.draws + 1 := rfl

/-- A register write changes the register file and nothing else. -/
theorem State.setReg_eq_with_regs (s : State) (i : RegIx) (v : Word) :
    s.setReg i v = { s with regs := (s.setReg i v).regs } := by
  unfold State.setReg; split <;> rfl

end Sys2Proof.Machine
end

