-- ==== Sys2Proof/Laws/Ops.lean ====
section
/-! SUPPORT. What each shared operation can do, said once: the lemmas later proofs cite instead of unfolding it. -/

namespace Sys2Proof.Machine

/-! ### Registers -/

@[simp] theorem State.reg_zero (s : State) : s.reg 0 = 0 := rfl

@[simp] theorem State.setReg_zero (s : State) (v : Word) : s.setReg 0 v = s := rfl

/-- A register read depends on the register file alone. -/
theorem State.reg_congr {s t : State} (h : s.regs = t.regs) (i : RegIx) : s.reg i = t.reg i := by
  unfold State.reg; rw [h]

/-- Every register after a register write. -/
theorem State.reg_setReg (s : State) (i r : RegIx) (v : Word) :
    (s.setReg i v).reg r = if r = i ∧ r ≠ 0 then v else s.reg r := by
  unfold State.reg State.setReg
  by_cases hr : r = 0
  · simp only [hr, if_true, ne_eq, not_true_eq_false, and_false, if_false]
  · by_cases hi : i = 0
    · have : ¬ (r = i) := fun e => hr (e.trans hi)
      simp only [hr, hi, if_true, if_false, false_and]
    · by_cases h : r = i
      · subst h
        simp only [hr, if_false, ne_eq, not_false_eq_true, and_self, if_true, Vector.getElem_set_self]
      · have hne : i.toNat ≠ r.toNat := fun e => h (BitVec.eq_of_toNat_eq e.symm)
        simp only [hr, hi, h, if_false, false_and, Vector.getElem_set_ne _ _ hne]

@[simp] theorem State.reg_jump (s : State) (t : Word) (i : RegIx) : (s.jump t).reg i = s.reg i := rfl

@[simp] theorem State.reg_raise (s : State) (r : FaultRecord) (i : RegIx) : (s.raise r).reg i = s.reg i := rfl

/-- Reset memory is in canonical form. -/
theorem State.reset_mem_wf : Memory.wf State.reset.mem = true := rfl

/-! ### Memory access -/

theorem State.inRange_iff (s : State) (a : Word) (n : Nat) :
    s.inRange a n = true ↔ a.toNat + n ≤ s.par.memSize := by
  simp [State.inRange]

/-- The three cases of a data access, in the order of R247. -/
theorem State.accessFault_cases (s : State) (site : FaultSite) (w : Width) (a : Word) :
    (w = .word ∧ misaligned a = true ∧ s.accessFault site w a = some (.misalignedAddress site s.pc a)) ∨
    ((w = .word → misaligned a = false) ∧ s.par.memSize < a.toNat + w.bytes ∧
      s.accessFault site w a = some (.outOfRange site s.pc a)) ∨
    ((w = .word → misaligned a = false) ∧ a.toNat + w.bytes ≤ s.par.memSize ∧ s.accessFault site w a = none) := by
  unfold State.accessFault
  by_cases h1 : w = .word ∧ misaligned a = true
  · exact .inl ⟨h1.1, h1.2, by rw [if_pos h1]⟩
  · have h1' : w = .word → misaligned a = false := fun hw => by
      cases hm : misaligned a
      · rfl
      · exact absurd ⟨hw, hm⟩ h1
    by_cases h2 : a.toNat + w.bytes ≤ s.par.memSize
    · exact .inr (.inr ⟨h1', h2, by rw [if_neg h1, if_pos ((s.inRange_iff a _).2 h2)]⟩)
    · exact .inr (.inl ⟨h1', by omega, by rw [if_neg h1, if_neg (fun h => h2 ((s.inRange_iff a _).1 h))]⟩)

/-- A load writes one register, or raises one fault. -/
theorem State.load_next {s t : State} {site : FaultSite} {w : Width} {ext : Word → Word} {b : RegIx} {a : Word}
    (h : s.load site w ext b a = .next t) :
    (∃ r, s.accessFault site w a = some r ∧ t = s.raise r) ∨
    (s.accessFault site w a = none ∧ t = s.setReg b (ext (Memory.readWidth s.mem a.toNat w))) := by
  unfold State.load at h
  split at h
  · next r hr => exact .inl ⟨r, hr, by simpa using h.symm⟩
  · next hr => exact .inr ⟨hr, by simpa using h.symm⟩

/-- A store writes the bytes of one access, or raises one fault. -/
theorem State.store_next {s t : State} {site : FaultSite} {w : Width} {a v : Word}
    (h : s.store site w a v = .next t) :
    (∃ r, s.accessFault site w a = some r ∧ t = s.raise r) ∨
    (s.accessFault site w a = none ∧ t = { s with mem := Memory.writeWidth s.mem a.toNat v w }) := by
  unfold State.store at h
  split at h
  · next r hr => exact .inl ⟨r, hr, by simpa using h.symm⟩
  · next hr => exact .inr ⟨hr, by simpa using h.symm⟩

/-! ### Control transfer -/

/-- A branch falls through, jumps to an aligned target, or raises one fault. -/
theorem State.branch_next {s t : State} {site : FaultSite} {cond : Bool} {imm : BitVec 16}
    (h : s.branch site cond imm = .next t) :
    (cond = false ∧ t = s) ∨
    (cond = true ∧ misaligned (branchTarget s.pc imm) = false ∧ t = s.jump (branchTarget s.pc imm)) ∨
    (misaligned (branchTarget s.pc imm) = true ∧ (s.par.branchAlignCheck = .always ∨ cond = true) ∧
      t = s.raise (.misalignedAddress site s.pc (branchTarget s.pc imm))) := by
  unfold State.branch at h
  split at h
  · next hc => exact .inr (.inr ⟨hc.1, hc.2, by simpa using h.symm⟩)
  · next hc =>
    split at h
    · next hcond =>
      refine .inr (.inl ⟨hcond, ?_, by simpa using h.symm⟩)
      cases hm : misaligned (branchTarget s.pc imm)
      · rfl
      · exact absurd ⟨hm, .inr hcond⟩ hc
    · next hcond => exact .inl ⟨by simpa using hcond, by simpa using h.symm⟩

/-- A call jumps to its target, or runs the host action bound to it; `r31` holds the return address first. -/
theorem execCall_next {s t : State} {n : BitVec 26} (h : execCall n s = .next t) :
    (∃ e, s.syscallAt (callTarget s.pc n) = some e ∧ t = (s.setReg raIndex s.pc).runSyscall e) ∨
    (s.syscallAt (callTarget s.pc n) = none ∧ t = (s.setReg raIndex s.pc).jump (callTarget s.pc n)) := by
  unfold execCall at h
  split at h
  · next e he => exact .inl ⟨e, he, by simpa using h.symm⟩
  · next he => exact .inr ⟨he, by simpa using h.symm⟩

/-- A return jumps to an aligned `r31`, or raises one fault. -/
theorem execRet_next {s t : State} (h : execRet s = .next t) :
    (misaligned (s.reg raIndex) = true ∧ t = s.raise (.misalignedAddress .ret s.pc (s.reg raIndex))) ∨
    (misaligned (s.reg raIndex) = false ∧ t = s.jump (s.reg raIndex)) := by
  unfold execRet at h
  split at h
  · next hm => exact .inl ⟨hm, by simpa using h.symm⟩
  · next hm => exact .inr ⟨by simpa using hm, by simpa using h.symm⟩

/-- `r0` reads 0 in the storage itself after a host action. -/
@[simp] theorem State.runSyscall_slot_zero (s : State) (e : SyscallEntry) : (s.runSyscall e).regs[0] = 0 := by
  simp [State.runSyscall]

/-! ### Fetch, unknown words, the cycle -/

/-- A fetch loads `IR` and advances `pc`, or is out of range. -/
theorem State.fetch_cases (s : State) :
    (s.pc.toNat + 4 ≤ s.par.memSize ∧
      s.fetch = .ok { s with ir := Memory.readWord s.mem s.pc.toNat, pc := s.pc + 4 }) ∨
    (s.par.memSize < s.pc.toNat + 4 ∧ s.fetch = .error (.outOfRange .fetch s.pc s.pc)) := by
  unfold State.fetch
  by_cases h : s.pc.toNat + 4 ≤ s.par.memSize
  · exact .inl ⟨h, by rw [if_pos ((s.inRange_iff _ _).2 h)]⟩
  · exact .inr ⟨by omega, by rw [if_neg (fun h' => h ((s.inRange_iff _ _).1 h'))]⟩

/-- An unknown word is logged or faults. -/
theorem State.unknown_next {s t : State} (h : s.unknown = .next t) :
    (s.par.unknownPolicy = .skip ∧ t = { s with log := s.log ++ [{ addr := s.pc - 4, word := s.ir }] }) ∨
    (s.par.unknownPolicy = .fault ∧ t = s.raise (.unknownInstruction s.pc s.ir)) := by
  unfold State.unknown at h
  split at h
  · next hp => exact .inl ⟨hp, by simpa using h.symm⟩
  · next hp => exact .inr ⟨hp, by simpa using h.symm⟩

/-- `execute()` runs the decoded instruction, or handles an unknown word. -/
theorem State.execute_cases (s : State) :
    (∃ i, decodeWord s.par.opcodes s.ir = .ok i ∧ s.execute = exec i s) ∨
    (∃ e, decodeWord s.par.opcodes s.ir = .error e ∧ s.execute = s.unknown) := by
  unfold State.execute
  cases h : decodeWord s.par.opcodes s.ir with
  | ok i => exact .inl ⟨i, rfl, rfl⟩
  | error e => exact .inr ⟨e, rfl, rfl⟩

/-- Everything a step that answers a next state can have done. -/
theorem step_cases {s t : State} (h : step s = .next t) :
    (s.status = .halted ∧ t = s) ∨
    (s.status = .running ∧ s.atEnd = true ∧ t = { s with status := .halted }) ∨
    (s.status = .running ∧ s.atEnd = false ∧ s.par.memSize < s.pc.toNat + 4 ∧
      t = s.raise (.outOfRange .fetch s.pc s.pc)) ∨
    (s.status = .running ∧ s.atEnd = false ∧ s.pc.toNat + 4 ≤ s.par.memSize ∧
      State.execute { s with ir := Memory.readWord s.mem s.pc.toNat, pc := s.pc + 4 } = .next t) := by
  unfold step State.cycle at h
  split at h
  · next hs => exact .inl ⟨hs, by simpa using h.symm⟩
  · simp at h
  · next hs =>
    split at h
    · next he => exact .inr (.inl ⟨hs, he, by simpa using h.symm⟩)
    · next he =>
      have he' : s.atEnd = false := by simpa using he
      rcases s.fetch_cases with ⟨hr, hf⟩ | ⟨hr, hf⟩ <;> rw [hf] at h
      · exact .inr (.inr (.inr ⟨hs, he', hr, h⟩))
      · exact .inr (.inr (.inl ⟨hs, he', hr, by simpa using h.symm⟩))

end Sys2Proof.Machine
end

