-- ==== Sys2Proof/Laws/Exec.lean ====
section
/-! SUPPORT. Everything an instruction can do, said once: one effect for each shape of instruction, and the inversion of
`exec` that whole-machine statements are proved from. -/

namespace Sys2Proof.Machine

/-! ### Alignment -/

/-- An address is misaligned exactly when it is not a multiple of 4 (20_memory R56). -/
theorem misaligned_iff (a : Word) : misaligned a = true ↔ a.toNat % 4 ≠ 0 := by
  unfold misaligned
  simp only [bne_iff_ne, ne_eq, ← BitVec.toNat_inj]
  simp

theorem aligned_iff (a : Word) : misaligned a = false ↔ a.toNat % 4 = 0 := by
  rw [← Bool.not_eq_true, misaligned_iff, not_not]

/-- The low two bits of a call target are 0 (42_control R197). -/
theorem callTarget_low_bits (pc : Word) (n : BitVec 26) : (callTarget pc n).extractLsb' 0 2 = 0 := by
  apply BitVec.eq_of_getLsbD_eq
  intro i hi
  simp only [callTarget, BitVec.getLsbD_extractLsb', BitVec.getLsbD_or, BitVec.getLsbD_and, BitVec.getLsbD_shiftLeft]
  interval_cases i <;> simp

/-! ### The effects -/

/-- The fault a data access or a control transfer of this state can raise. -/
def State.CanRaise (s : State) (r : FaultRecord) : Prop :=
  (∃ site addr, r = .misalignedAddress site s.pc addr ∧ misaligned addr = true) ∨
  (∃ site addr, r = .outOfRange site s.pc addr ∧ s.par.memSize < addr.toNat + 4)

/-- What the execution of an instruction can do to the state after the fetch. -/
inductive Effect (i : Instr) (s t : State) : Prop where
  /-- a value in the destination register -/
  | register (d : RegIx) (v : Word) (eq : t = s.setReg d v) (dest : i.dest = some d) (plain : i.transfersControl = false)
  /-- one fault -/
  | fault (r : FaultRecord) (eq : t = s.raise r) (record : s.CanRaise r)
  /-- a branch not taken -/
  | stay (eq : t = s) (transfer : i.transfersControl = true)
  /-- a branch taken, or a return -/
  | jump (p : Word) (eq : t = s.jump p) (aligned : misaligned p = false) (transfer : i.transfersControl = true)
  /-- a call of guest code -/
  | call (p : Word) (eq : t = (s.setReg raIndex s.pc).jump p) (aligned : misaligned p = false)
      (transfer : i.transfersControl = true) (dest : i.dest = some raIndex)
  /-- a call of a host action -/
  | host (e : SyscallEntry) (eq : t = (s.setReg raIndex s.pc).runSyscall e) (transfer : i.transfersControl = true)
      (bound : s.callsHost i = true)
  /-- the bytes of one store -/
  | store (a : Nat) (v : Word) (w : Width) (eq : t = { s with mem := Memory.writeWidth s.mem a v w })
      (inside : a + w.bytes ≤ s.par.memSize) (isStore : i.isStore = true) (plain : i.transfersControl = false)

theorem State.canRaise_accessFault {s : State} {site : FaultSite} {w : Width} {a : Word} {r : FaultRecord}
    (h : s.accessFault site w a = some r) : s.CanRaise r := by
  rcases s.accessFault_cases site w a with ⟨_, hm, h2⟩ | ⟨_, hm, h2⟩ | ⟨_, _, h2⟩ <;> rw [h2] at h
  · exact .inl ⟨site, a, (Option.some.inj h).symm, hm⟩
  · refine .inr ⟨site, a, (Option.some.inj h).symm, ?_⟩
    cases w <;> simp only [Width.bytes] at hm <;> omega
  · cases h

theorem Effect.of_branch {i : Instr} {s t : State} {site : FaultSite} {cond : Bool} {imm : BitVec 16}
    (h : s.branch site cond imm = .next t) (hi : i.transfersControl = true) : Effect i s t := by
  rcases State.branch_next h with ⟨_, rfl⟩ | ⟨_, hm, rfl⟩ | ⟨hm, _, rfl⟩
  · exact .stay rfl hi
  · exact .jump _ rfl hm hi
  · exact .fault _ rfl (.inl ⟨_, _, rfl, hm⟩)

theorem Effect.of_load {i : Instr} {s t : State} {site : FaultSite} {w : Width} {ext : Word → Word} {b : RegIx} {a : Word}
    (h : s.load site w ext b a = .next t) (hd : i.dest = some b) (hi : i.transfersControl = false) : Effect i s t := by
  rcases State.load_next h with ⟨r, hr, rfl⟩ | ⟨_, rfl⟩
  · exact .fault _ rfl (State.canRaise_accessFault hr)
  · exact .register _ _ rfl hd hi

theorem Effect.of_store {i : Instr} {s t : State} {site : FaultSite} {w : Width} {a v : Word}
    (h : s.store site w a v = .next t) (hs : i.isStore = true) (hi : i.transfersControl = false) : Effect i s t := by
  rcases State.store_next h with ⟨r, hr, rfl⟩ | ⟨hn, rfl⟩
  · exact .fault _ rfl (State.canRaise_accessFault hr)
  · rcases s.accessFault_cases site w a with ⟨_, _, h2⟩ | ⟨_, _, h2⟩ | ⟨_, hb, _⟩
    · rw [h2] at hn; cases hn
    · rw [h2] at hn; cases hn
    · exact .store _ _ _ rfl hb hs hi

/-- Every instruction does one of these. -/
theorem exec_effect {i : Instr} {s t : State} (h : exec i s = .next t) : Effect i s t := by
  cases i <;> simp only [exec] at h
  case br => exact .of_branch h rfl
  case beq => exact .of_branch h rfl
  case bne => exact .of_branch h rfl
  case bge => exact .of_branch h rfl
  case blt => exact .of_branch h rfl
  case call n =>
    rcases execCall_next h with ⟨e, he, rfl⟩ | ⟨_, rfl⟩
    · exact .host e rfl rfl (by simp [State.callsHost, he])
    · exact .call _ rfl (by simp [misaligned, callTarget_low_bits]) rfl rfl
  case ret =>
    rcases execRet_next h with ⟨hm, rfl⟩ | ⟨hm, rfl⟩
    · exact .fault _ rfl (.inl ⟨_, _, rfl, hm⟩)
    · exact .jump _ rfl hm rfl
  case ldw => exact .of_load h rfl rfl
  case ldb => exact .of_load h rfl rfl
  case ldbu => exact .of_load h rfl rfl
  case stw => exact .of_store h rfl rfl
  case stb => exact .of_store h rfl rfl
  all_goals exact .register _ _ (Host.Outcome.next.inj h).symm rfl rfl

end Sys2Proof.Machine
end

