-- ==== Sys2Proof/Laws/PerInstr.lean ====
section
/-! SUPPORT. A law of every instruction as syntax: the word the encoder gives it under the default opcode
values matches its row of spec/opcode_table.json, whose match and mask values are written out here. -/

namespace Sys2Proof

/-- The match and mask of an instruction's row of spec/opcode_table.json. -/
def tableRow : Instr → Word × Word
  | .add _ _ _ => (0x0001883A, 0x0001FFFF)
  | .sub _ _ _ => (0x0001C83A, 0x0001FFFF)
  | .and _ _ _ => (0x0000703A, 0x0001FFFF)
  | .or _ _ _ => (0x0000B03A, 0x0001FFFF)
  | .xor _ _ _ => (0x0000F03A, 0x0001FFFF)
  | .nor _ _ _ => (0x0000303A, 0x0001FFFF)
  | .addi _ _ _ => (0x00000004, 0x0000003F)
  | .andi _ _ _ => (0x0000000C, 0x0000003F)
  | .andhi _ _ _ => (0x0000002C, 0x0000003F)
  | .ori _ _ _ => (0x00000014, 0x0000003F)
  | .orhi _ _ _ => (0x00000034, 0x0000003F)
  | .xori _ _ _ => (0x0000001C, 0x0000003F)
  | .xorhi _ _ _ => (0x0000003C, 0x0000003F)
  | .sll _ _ _ => (0x0000983A, 0x0001FFFF)
  | .srl _ _ _ => (0x0000D83A, 0x0001FFFF)
  | .slli _ _ _ => (0x0000903A, 0x0001F83F)
  | .srli _ _ _ => (0x0000D03A, 0x0001F83F)
  | .cmpeq _ _ _ => (0x0001003A, 0x0001FFFF)
  | .cmpne _ _ _ => (0x0000C03A, 0x0001FFFF)
  | .cmpge _ _ _ => (0x0000403A, 0x0001FFFF)
  | .cmplt _ _ _ => (0x0000803A, 0x0001FFFF)
  | .cmpeqi _ _ _ => (0x00000020, 0x0000003F)
  | .cmpnei _ _ _ => (0x00000018, 0x0000003F)
  | .cmpgei _ _ _ => (0x00000008, 0x0000003F)
  | .cmplti _ _ _ => (0x00000010, 0x0000003F)
  | .br _ => (0x00000006, 0x0000003F)
  | .beq _ _ _ => (0x00000026, 0x0000003F)
  | .bne _ _ _ => (0x0000001E, 0x0000003F)
  | .bge _ _ _ => (0x0000000E, 0x0000003F)
  | .blt _ _ _ => (0x00000016, 0x0000003F)
  | .call _ => (0x00000000, 0x0000003F)
  | .ret => (0x0000283A, 0x0001FFFF)
  | .ldw _ _ _ => (0x00000017, 0x0000003F)
  | .stw _ _ _ => (0x00000015, 0x0000003F)
  | .ldb _ _ _ => (0x00000007, 0x0000003F)
  | .ldbu _ _ _ => (0x00000003, 0x0000003F)
  | .stb _ _ _ => (0x00000005, 0x0000003F)

/-- Dispatch of an I- or J-format word reads `OP` alone. -/
theorem packI_masked (a b : RegIx) (imm : BitVec 16) (op : BitVec 6) : packI a b imm op &&& 0x3F = op.setWidth 32 := by
  apply BitVec.eq_of_getLsbD_eq
  intro i hi
  simp only [packI, BitVec.getLsbD_and, BitVec.getLsbD_append, BitVec.getLsbD_setWidth]
  interval_cases i <;> simp

theorem packJ_masked (imm : BitVec 26) (op : BitVec 6) : packJ imm op &&& 0x3F = op.setWidth 32 := by
  apply BitVec.eq_of_getLsbD_eq
  intro i hi
  simp only [packJ, BitVec.getLsbD_and, BitVec.getLsbD_append, BitVec.getLsbD_setWidth]
  interval_cases i <;> simp

/-- Dispatch of an R-format word reads `OPX` and `OP`. -/
theorem packR_masked (a b c : RegIx) (opx : BitVec 11) (op : BitVec 6) :
    packR a b c opx op &&& 0x1FFFF = (opx ++ op).setWidth 32 := by
  apply BitVec.eq_of_getLsbD_eq
  intro i hi
  simp only [packR, BitVec.getLsbD_and, BitVec.getLsbD_append, BitVec.getLsbD_setWidth]
  interval_cases i <;> simp

/-- Dispatch of a shift-immediate reads `OPX[10:5]` and `OP`. -/
theorem packR_shift_masked (a b c : RegIx) (opx : BitVec 11) (n : BitVec 5) (op : BitVec 6) :
    packR a b c (opx ||| n.setWidth 11) op &&& 0x1F83F = ((opx &&& 0x7E0) ++ op).setWidth 32 := by
  apply BitVec.eq_of_getLsbD_eq
  intro i hi
  simp only [packR, BitVec.getLsbD_and, BitVec.getLsbD_or, BitVec.getLsbD_append, BitVec.getLsbD_setWidth]
  interval_cases i <;> simp

end Sys2Proof

namespace Sys2Proof.Laws.MatchesRow

/-- The instruction's word under the default opcode values matches its row of the opcode table under the row's mask
(30_encoding R94, R97). -/
def Statement (i : Instr) : Prop := encode OpcodeValues.specDefault i &&& (tableRow i).2 = (tableRow i).1

theorem ofI {i : Instr} {op : BitVec 6} {b a : RegIx} {imm : BitVec 16} (h : i.raw OpcodeValues.specDefault = rawI op b a imm)
    (hm : (tableRow i).2 = 0x3F) (hv : op.setWidth 32 = (tableRow i).1) : Statement i := by
  unfold Statement encode; rw [h, hm, encode_rawI, packI_masked, hv]

theorem ofJ {i : Instr} {op : BitVec 6} {imm : BitVec 26} (h : i.raw OpcodeValues.specDefault = rawJ op imm)
    (hm : (tableRow i).2 = 0x3F) (hv : op.setWidth 32 = (tableRow i).1) : Statement i := by
  unfold Statement encode; rw [h, hm, encode_rawJ, packJ_masked, hv]

theorem ofR {i : Instr} {opx : BitVec 11} {c a b : RegIx} (h : i.raw OpcodeValues.specDefault = rawR OpcodeValues.specDefault.rType opx c a b)
    (hm : (tableRow i).2 = 0x1FFFF) (hv : (opx ++ OpcodeValues.specDefault.rType).setWidth 32 = (tableRow i).1) : Statement i := by
  unfold Statement encode; rw [h, hm, encode_rawR, packR_masked, hv]

theorem ofShift {i : Instr} {opx : BitVec 11} {c a : RegIx} {n : BitVec 5} (h : i.raw OpcodeValues.specDefault = rawShift OpcodeValues.specDefault.rType opx c a n)
    (hm : (tableRow i).2 = 0x1F83F) (hv : ((opx &&& 0x7E0) ++ OpcodeValues.specDefault.rType).setWidth 32 = (tableRow i).1) :
    Statement i := by
  unfold Statement encode; rw [h, hm, rawShift, encode_rawR, packR_shift_masked, hv]

end Sys2Proof.Laws.MatchesRow

theorem Sys2Proof.Laws.MatchesRow.add (c a b : Sys2Proof.RegIx) :
    Sys2Proof.Laws.MatchesRow.Statement (.add c a b) :=
  Sys2Proof.Laws.MatchesRow.ofR rfl rfl rfl

theorem Sys2Proof.Laws.MatchesRow.sub (c a b : Sys2Proof.RegIx) :
    Sys2Proof.Laws.MatchesRow.Statement (.sub c a b) :=
  Sys2Proof.Laws.MatchesRow.ofR rfl rfl rfl

theorem Sys2Proof.Laws.MatchesRow.and (c a b : Sys2Proof.RegIx) :
    Sys2Proof.Laws.MatchesRow.Statement (.and c a b) :=
  Sys2Proof.Laws.MatchesRow.ofR rfl rfl rfl

theorem Sys2Proof.Laws.MatchesRow.or (c a b : Sys2Proof.RegIx) :
    Sys2Proof.Laws.MatchesRow.Statement (.or c a b) :=
  Sys2Proof.Laws.MatchesRow.ofR rfl rfl rfl

theorem Sys2Proof.Laws.MatchesRow.xor (c a b : Sys2Proof.RegIx) :
    Sys2Proof.Laws.MatchesRow.Statement (.xor c a b) :=
  Sys2Proof.Laws.MatchesRow.ofR rfl rfl rfl

theorem Sys2Proof.Laws.MatchesRow.nor (c a b : Sys2Proof.RegIx) :
    Sys2Proof.Laws.MatchesRow.Statement (.nor c a b) :=
  Sys2Proof.Laws.MatchesRow.ofR rfl rfl rfl

theorem Sys2Proof.Laws.MatchesRow.addi (b a : Sys2Proof.RegIx) (imm : BitVec 16) :
    Sys2Proof.Laws.MatchesRow.Statement (.addi b a imm) :=
  Sys2Proof.Laws.MatchesRow.ofI rfl rfl rfl

theorem Sys2Proof.Laws.MatchesRow.andi (b a : Sys2Proof.RegIx) (imm : BitVec 16) :
    Sys2Proof.Laws.MatchesRow.Statement (.andi b a imm) :=
  Sys2Proof.Laws.MatchesRow.ofI rfl rfl rfl

theorem Sys2Proof.Laws.MatchesRow.andhi (b a : Sys2Proof.RegIx) (imm : BitVec 16) :
    Sys2Proof.Laws.MatchesRow.Statement (.andhi b a imm) :=
  Sys2Proof.Laws.MatchesRow.ofI rfl rfl rfl

theorem Sys2Proof.Laws.MatchesRow.ori (b a : Sys2Proof.RegIx) (imm : BitVec 16) :
    Sys2Proof.Laws.MatchesRow.Statement (.ori b a imm) :=
  Sys2Proof.Laws.MatchesRow.ofI rfl rfl rfl

theorem Sys2Proof.Laws.MatchesRow.orhi (b a : Sys2Proof.RegIx) (imm : BitVec 16) :
    Sys2Proof.Laws.MatchesRow.Statement (.orhi b a imm) :=
  Sys2Proof.Laws.MatchesRow.ofI rfl rfl rfl

theorem Sys2Proof.Laws.MatchesRow.xori (b a : Sys2Proof.RegIx) (imm : BitVec 16) :
    Sys2Proof.Laws.MatchesRow.Statement (.xori b a imm) :=
  Sys2Proof.Laws.MatchesRow.ofI rfl rfl rfl

theorem Sys2Proof.Laws.MatchesRow.xorhi (b a : Sys2Proof.RegIx) (imm : BitVec 16) :
    Sys2Proof.Laws.MatchesRow.Statement (.xorhi b a imm) :=
  Sys2Proof.Laws.MatchesRow.ofI rfl rfl rfl

theorem Sys2Proof.Laws.MatchesRow.sll (c a b : Sys2Proof.RegIx) :
    Sys2Proof.Laws.MatchesRow.Statement (.sll c a b) :=
  Sys2Proof.Laws.MatchesRow.ofR rfl rfl rfl

theorem Sys2Proof.Laws.MatchesRow.srl (c a b : Sys2Proof.RegIx) :
    Sys2Proof.Laws.MatchesRow.Statement (.srl c a b) :=
  Sys2Proof.Laws.MatchesRow.ofR rfl rfl rfl

theorem Sys2Proof.Laws.MatchesRow.slli (c a : Sys2Proof.RegIx) (imm5 : BitVec 5) :
    Sys2Proof.Laws.MatchesRow.Statement (.slli c a imm5) :=
  Sys2Proof.Laws.MatchesRow.ofShift rfl rfl rfl

theorem Sys2Proof.Laws.MatchesRow.srli (c a : Sys2Proof.RegIx) (imm5 : BitVec 5) :
    Sys2Proof.Laws.MatchesRow.Statement (.srli c a imm5) :=
  Sys2Proof.Laws.MatchesRow.ofShift rfl rfl rfl

theorem Sys2Proof.Laws.MatchesRow.cmpeq (c a b : Sys2Proof.RegIx) :
    Sys2Proof.Laws.MatchesRow.Statement (.cmpeq c a b) :=
  Sys2Proof.Laws.MatchesRow.ofR rfl rfl rfl

theorem Sys2Proof.Laws.MatchesRow.cmpne (c a b : Sys2Proof.RegIx) :
    Sys2Proof.Laws.MatchesRow.Statement (.cmpne c a b) :=
  Sys2Proof.Laws.MatchesRow.ofR rfl rfl rfl

theorem Sys2Proof.Laws.MatchesRow.cmpge (c a b : Sys2Proof.RegIx) :
    Sys2Proof.Laws.MatchesRow.Statement (.cmpge c a b) :=
  Sys2Proof.Laws.MatchesRow.ofR rfl rfl rfl

theorem Sys2Proof.Laws.MatchesRow.cmplt (c a b : Sys2Proof.RegIx) :
    Sys2Proof.Laws.MatchesRow.Statement (.cmplt c a b) :=
  Sys2Proof.Laws.MatchesRow.ofR rfl rfl rfl

theorem Sys2Proof.Laws.MatchesRow.cmpeqi (b a : Sys2Proof.RegIx) (imm : BitVec 16) :
    Sys2Proof.Laws.MatchesRow.Statement (.cmpeqi b a imm) :=
  Sys2Proof.Laws.MatchesRow.ofI rfl rfl rfl

theorem Sys2Proof.Laws.MatchesRow.cmpnei (b a : Sys2Proof.RegIx) (imm : BitVec 16) :
    Sys2Proof.Laws.MatchesRow.Statement (.cmpnei b a imm) :=
  Sys2Proof.Laws.MatchesRow.ofI rfl rfl rfl

theorem Sys2Proof.Laws.MatchesRow.cmpgei (b a : Sys2Proof.RegIx) (imm : BitVec 16) :
    Sys2Proof.Laws.MatchesRow.Statement (.cmpgei b a imm) :=
  Sys2Proof.Laws.MatchesRow.ofI rfl rfl rfl

theorem Sys2Proof.Laws.MatchesRow.cmplti (b a : Sys2Proof.RegIx) (imm : BitVec 16) :
    Sys2Proof.Laws.MatchesRow.Statement (.cmplti b a imm) :=
  Sys2Proof.Laws.MatchesRow.ofI rfl rfl rfl

theorem Sys2Proof.Laws.MatchesRow.br (imm : BitVec 16) :
    Sys2Proof.Laws.MatchesRow.Statement (.br imm) :=
  Sys2Proof.Laws.MatchesRow.ofI rfl rfl rfl

theorem Sys2Proof.Laws.MatchesRow.beq (a b : Sys2Proof.RegIx) (imm : BitVec 16) :
    Sys2Proof.Laws.MatchesRow.Statement (.beq a b imm) :=
  Sys2Proof.Laws.MatchesRow.ofI rfl rfl rfl

theorem Sys2Proof.Laws.MatchesRow.bne (a b : Sys2Proof.RegIx) (imm : BitVec 16) :
    Sys2Proof.Laws.MatchesRow.Statement (.bne a b imm) :=
  Sys2Proof.Laws.MatchesRow.ofI rfl rfl rfl

theorem Sys2Proof.Laws.MatchesRow.bge (a b : Sys2Proof.RegIx) (imm : BitVec 16) :
    Sys2Proof.Laws.MatchesRow.Statement (.bge a b imm) :=
  Sys2Proof.Laws.MatchesRow.ofI rfl rfl rfl

theorem Sys2Proof.Laws.MatchesRow.blt (a b : Sys2Proof.RegIx) (imm : BitVec 16) :
    Sys2Proof.Laws.MatchesRow.Statement (.blt a b imm) :=
  Sys2Proof.Laws.MatchesRow.ofI rfl rfl rfl

theorem Sys2Proof.Laws.MatchesRow.call (imm26 : BitVec 26) :
    Sys2Proof.Laws.MatchesRow.Statement (.call imm26) :=
  Sys2Proof.Laws.MatchesRow.ofJ rfl rfl rfl

theorem Sys2Proof.Laws.MatchesRow.ret :
    Sys2Proof.Laws.MatchesRow.Statement .ret :=
  Sys2Proof.Laws.MatchesRow.ofR rfl rfl rfl

theorem Sys2Proof.Laws.MatchesRow.ldw (b : Sys2Proof.RegIx) (imm : BitVec 16) (a : Sys2Proof.RegIx) :
    Sys2Proof.Laws.MatchesRow.Statement (.ldw b imm a) :=
  Sys2Proof.Laws.MatchesRow.ofI rfl rfl rfl

theorem Sys2Proof.Laws.MatchesRow.stw (b : Sys2Proof.RegIx) (imm : BitVec 16) (a : Sys2Proof.RegIx) :
    Sys2Proof.Laws.MatchesRow.Statement (.stw b imm a) :=
  Sys2Proof.Laws.MatchesRow.ofI rfl rfl rfl

theorem Sys2Proof.Laws.MatchesRow.ldb (b : Sys2Proof.RegIx) (imm : BitVec 16) (a : Sys2Proof.RegIx) :
    Sys2Proof.Laws.MatchesRow.Statement (.ldb b imm a) :=
  Sys2Proof.Laws.MatchesRow.ofI rfl rfl rfl

theorem Sys2Proof.Laws.MatchesRow.ldbu (b : Sys2Proof.RegIx) (imm : BitVec 16) (a : Sys2Proof.RegIx) :
    Sys2Proof.Laws.MatchesRow.Statement (.ldbu b imm a) :=
  Sys2Proof.Laws.MatchesRow.ofI rfl rfl rfl

theorem Sys2Proof.Laws.MatchesRow.stb (b : Sys2Proof.RegIx) (imm : BitVec 16) (a : Sys2Proof.RegIx) :
    Sys2Proof.Laws.MatchesRow.Statement (.stb b imm a) :=
  Sys2Proof.Laws.MatchesRow.ofI rfl rfl rfl
end

