-- ==== Sys2Proof/Tests/Slice0.lean ====
section
/-! SUPPORT. Tests: words written out from the spec's encodings, the vectors of 95_test_vectors each through one step, the
well-formedness smoke test, and a witness for the hypotheses of each statement that has some. -/

namespace Sys2Proof.Tests

open Sys2Proof Sys2Proof.Machine

/-- Parameters of the vectors (95_test_vectors section 2.1), with the HALT_CMP of no consequence there. -/
def params : Params :=
  { memSize := 0x200
    haltCmp := .eq
    unknownPolicy := .skip
    branchAlignCheck := .always
    opcodes := OpcodeValues.specDefault }

/-- A running machine with these registers at `pc`, the program's end at 0x200, and the vectors' memory bytes. -/
def vm (regs : List (RegIx × Word)) (pc : Word) : State :=
  regs.foldl (fun s r => s.setReg r.1 r.2)
    { State.construct params
        [(0x40, 0x01), (0x41, 0x02), (0x42, 0x03), (0x43, 0x04), (0x44, 0x80), (0x45, 0x7F), (0x46, 0xFF)] with
      pc := pc
      status := .running
      program := { image := [], instructionCount := 0x80, entryPoint := 0 } }

/-- The same with an instruction word at 0x100, where `pc` is. -/
def vmAt (w : Word) (regs : List (RegIx × Word)) : State :=
  let s := vm regs 0x100
  { s with mem := Memory.writeWord s.mem 0x100 w }

/-- The outcome is a next state that passes a check. -/
def gives (o : Result) (p : State → Bool) : Bool :=
  match o with
  | .next t => p t
  | _ => false

/-! ### Words written out from the encodings (30_encoding R108, 95_test_vectors sections 2.2 to 2.7) -/

/-- Each word decodes to its instruction, and the instruction encodes to the word. -/
def agrees (p : Nat × Instr) : Bool :=
  decide (decodeTableWord 32 p.1 = some p.2) && decide (encode OpcodeValues.specDefault p.2 = BitVec.ofNat 32 p.1)

theorem test_decode_first_words :
    ([(0x31CB883A, .add 5 6 7),
      (0x0887C83A, .sub 3 1 2),
      (0x0886703A, .and 3 1 2),
      (0x0886B03A, .or 3 1 2),
      (0x0846F03A, .xor 3 1 1),
      (0x0006303A, .nor 3 0 0),
      (0x423FFFC4, .addi 8 8 0xFFFF),
      (0x08A0004C, .andi 2 1 0x8001),
      (0x08BFC02C, .andhi 2 1 0xFF00),
      (0x00BFFFD4, .ori 2 0 0xFFFF)] : List (Nat × Instr)).all agrees = true := by
  decide +kernel

theorem test_decode_second_words :
    ([(0x00848D34, .orhi 2 0 0x1234),
      (0x08BFFFDC, .xori 2 1 0xFFFF),
      (0x08BFFFFC, .xorhi 2 1 0xFFFF),
      (0x0886983A, .sll 3 1 2),
      (0x0886D83A, .srl 3 1 2),
      (0x100697FA, .slli 3 2 31),
      (0x0806D7FA, .srli 3 1 31),
      (0x0887003A, .cmpeq 3 1 2),
      (0x0886C03A, .cmpne 3 1 2),
      (0x0886403A, .cmpge 3 1 2)] : List (Nat × Instr)).all agrees = true := by
  decide +kernel

theorem test_decode_third_words :
    ([(0x0886803A, .cmplt 3 1 2),
      (0x08BFFFE0, .cmpeqi 2 1 0xFFFF),
      (0x08800018, .cmpnei 2 1 0),
      (0x08A00008, .cmpgei 2 1 0x8000),
      (0x08800010, .cmplti 2 1 0),
      (0x003FFF06, .br 0xFFFC),
      (0x08800426, .beq 1 2 16),
      (0x08BFBF1E, .bne 1 2 0xFEFC),
      (0x0880020E, .bge 1 2 8),
      (0x08800216, .blt 1 2 8)] : List (Nat × Instr)).all agrees = true := by
  decide +kernel

theorem test_decode_fourth_words :
    ([(0x00000400, .call 0x10),
      (0xF800283A, .ret),
      (0x08400117, .ldw 1 4 1),
      (0x08800255, .stw 2 9 1),
      (0x08800147, .ldb 2 5 1),
      (0x08800183, .ldbu 2 6 1),
      (0x088000C5, .stb 2 3 1)] : List (Nat × Instr)).all agrees = true := by
  decide +kernel

theorem test_decode_unknown_opcode : decodeTableWord 32 0xFFFFFFFF = none := by decide

theorem test_decode_unknown_opx : decodeTableWord 32 0x0887383A = none := by decide

theorem test_decode_names_the_unknown : (match decode OpcodeValues.specDefault [0x41, 0, 0, 0] with | .error e => decide (e = .unknownOpcode 1) | _ => false) = true := by
  decide

theorem test_decode_truncated : (match decode OpcodeValues.specDefault [0x3A, 0x88, 0x01] with | .error e => decide (e = .truncated) | _ => false) = true := by
  decide

/-! ### One step on each vector of 95_test_vectors (its id beside it) -/

-- V-ALU-1
theorem test_add_wraps : gives (step (vmAt 0x0887883A [(1, 0x7FFFFFFF), (2, 1)])) (fun t => t.reg 3 == 0x80000000 && t.pc == 0x104) = true := by decide

-- V-ALU-4
theorem test_add_reads_sources_first : gives (step (vmAt 0x0843883A [(1, 0x40000000)])) (fun t => t.reg 1 == 0x80000000) = true := by decide

-- V-ALU-5
theorem test_sub_borrows : gives (step (vmAt 0x0887C83A [(1, 0), (2, 1)])) (fun t => t.reg 3 == 0xFFFFFFFF) = true := by decide

-- V-ALU-7
theorem test_and : gives (step (vmAt 0x0886703A [(1, 0xF0F0F0F0), (2, 0xFF00FF00)])) (fun t => t.reg 3 == 0xF000F000) = true := by decide

-- V-ALU-8
theorem test_or : gives (step (vmAt 0x0886B03A [(1, 0xF0F0F0F0), (2, 0x0F0F0000)])) (fun t => t.reg 3 == 0xFFFFF0F0) = true := by decide

-- V-ALU-9
theorem test_xor_self : gives (step (vmAt 0x0846F03A [(1, 0x12345678), (3, 7)])) (fun t => t.reg 3 == 0) = true := by decide

-- V-ALU-10
theorem test_nor_zero : gives (step (vmAt 0x0006303A [])) (fun t => t.reg 3 == 0xFFFFFFFF) = true := by decide

-- V-ALU-11
theorem test_addi_negative : gives (step (vmAt 0x08A00004 [(1, 0)])) (fun t => t.reg 2 == 0xFFFF8000) = true := by decide

-- V-ALU-13
theorem test_andi_zero_extends : gives (step (vmAt 0x08A0004C [(1, 0xFFFFFFFF)])) (fun t => t.reg 2 == 0x00008001) = true := by decide

-- V-ALU-14
theorem test_andhi : gives (step (vmAt 0x08BFC02C [(1, 0x12345678)])) (fun t => t.reg 2 == 0x12000000) = true := by decide

-- V-ALU-15
theorem test_ori_zero_extends : gives (step (vmAt 0x00BFFFD4 [])) (fun t => t.reg 2 == 0x0000FFFF) = true := by decide

-- V-ALU-16
theorem test_orhi : gives (step (vmAt 0x00848D34 [])) (fun t => t.reg 2 == 0x12340000) = true := by decide

-- V-ALU-17
theorem test_xori : gives (step (vmAt 0x08BFFFDC [(1, 0xFFFFFFFF)])) (fun t => t.reg 2 == 0xFFFF0000) = true := by decide

-- V-ALU-18
theorem test_xorhi : gives (step (vmAt 0x08BFFFFC [(1, 0xFFFFFFFF)])) (fun t => t.reg 2 == 0x0000FFFF) = true := by decide

-- V-ALU-19
theorem test_sll_by_31 : gives (step (vmAt 0x0886983A [(1, 1), (2, 31)])) (fun t => t.reg 3 == 0x80000000) = true := by decide

-- V-ALU-21
theorem test_sll_by_33 : gives (step (vmAt 0x0886983A [(1, 1), (2, 33)])) (fun t => t.reg 3 == 2) = true := by decide

-- V-ALU-22
theorem test_srl_is_logical : gives (step (vmAt 0x0886D83A [(1, 0x80000000), (2, 1)])) (fun t => t.reg 3 == 0x40000000) = true := by decide

-- V-ALU-23
theorem test_srl_amount_is_five_bits : gives (step (vmAt 0x0886D83A [(1, 0x80000000), (2, 0xFFFFFFFF)])) (fun t => t.reg 3 == 1) = true := by decide

-- V-ALU-24
theorem test_slli_by_0 : gives (step (vmAt 0x0806903A [(1, 0xDEADBEEF)])) (fun t => t.reg 3 == 0xDEADBEEF) = true := by decide

-- V-ALU-25
theorem test_slli_by_31 : gives (step (vmAt 0x080697FA [(1, 3)])) (fun t => t.reg 3 == 0x80000000) = true := by decide

-- V-ALU-26
theorem test_srli_by_31 : gives (step (vmAt 0x0806D7FA [(1, 0x80000000)])) (fun t => t.reg 3 == 1) = true := by decide

-- V-CMP-1
theorem test_cmpeq : gives (step (vmAt 0x0887003A [(1, 7), (2, 7)])) (fun t => t.reg 3 == 1) = true := by decide

-- V-CMP-2
theorem test_cmpne : gives (step (vmAt 0x0886C03A [(1, 7), (2, 7), (3, 9)])) (fun t => t.reg 3 == 0) = true := by decide

-- V-CMP-3
theorem test_cmpge_signed : gives (step (vmAt 0x0886403A [(1, 0xFFFFFFFF), (2, 0), (3, 9)])) (fun t => t.reg 3 == 0) = true := by decide

-- V-CMP-4
theorem test_cmpge_extremes : gives (step (vmAt 0x0886403A [(1, 0x7FFFFFFF), (2, 0x80000000)])) (fun t => t.reg 3 == 1) = true := by decide

-- V-CMP-6
theorem test_cmplt_extremes : gives (step (vmAt 0x0886803A [(1, 0x80000000), (2, 0x7FFFFFFF)])) (fun t => t.reg 3 == 1) = true := by decide

-- V-CMP-7
theorem test_cmplt_equal : gives (step (vmAt 0x0886803A [(1, 5), (2, 5), (3, 9)])) (fun t => t.reg 3 == 0) = true := by decide

-- V-CMP-8
theorem test_cmpeqi_sign_extends : gives (step (vmAt 0x08BFFFE0 [(1, 0xFFFFFFFF)])) (fun t => t.reg 2 == 1) = true := by decide

-- V-CMP-9
theorem test_cmpeqi_low_half : gives (step (vmAt 0x08BFFFE0 [(1, 0x0000FFFF), (2, 9)])) (fun t => t.reg 2 == 0) = true := by decide

-- V-CMP-10
theorem test_cmpnei : gives (step (vmAt 0x08800018 [(1, 0), (2, 9)])) (fun t => t.reg 2 == 0) = true := by decide

-- V-CMP-11
theorem test_cmpgei : gives (step (vmAt 0x08A00008 [(1, 0x80000000), (2, 9)])) (fun t => t.reg 2 == 0) = true := by decide

-- V-CMP-12
theorem test_cmplti : gives (step (vmAt 0x08800010 [(1, 0x80000000)])) (fun t => t.reg 2 == 1) = true := by decide

-- V-CTL-1
theorem test_br_forward : gives (step (vmAt 0x00000206 [])) (fun t => t.pc == 0x10C) = true := by decide

-- V-CTL-3
theorem test_br_misaligned : gives (step (vmAt 0x00000086 [])) (fun t => decide (t.status = .faulted (.misalignedAddress .br 0x104 0x106)) && t.pc == 0x104) = true := by decide

-- V-CTL-4
theorem test_beq_taken : gives (step (vmAt 0x08800426 [(1, 3), (2, 3)])) (fun t => t.pc == 0x114) = true := by decide

-- V-CTL-6
theorem test_beq_not_taken_misaligned : gives (step (vmAt 0x088001A6 [(1, 3), (2, 4)])) (fun t => decide (t.status = .faulted (.misalignedAddress .beq 0x104 0x10A))) = true := by decide

-- V-CTL-7
theorem test_bne_backward : gives (step (vmAt 0x08BFBF1E [(1, 1), (2, 2)])) (fun t => t.pc == 0) = true := by decide

-- V-CTL-8
theorem test_bge_taken : gives (step (vmAt 0x0880020E [(1, 0), (2, 0xFFFFFFFF)])) (fun t => t.pc == 0x10C) = true := by decide

-- V-CTL-9
theorem test_bge_not_taken : gives (step (vmAt 0x0880020E [(1, 0xFFFFFFFF), (2, 0)])) (fun t => t.pc == 0x104) = true := by decide

-- V-CTL-10
theorem test_blt_taken : gives (step (vmAt 0x08800216 [(1, 0x80000000), (2, 0)])) (fun t => t.pc == 0x10C) = true := by decide

-- V-CTL-11
theorem test_blt_equal : gives (step (vmAt 0x08800216 [(1, 2), (2, 2)])) (fun t => t.pc == 0x104) = true := by decide

-- V-CTL-12
theorem test_call : gives (step (vmAt 0x00000400 [])) (fun t => t.reg 31 == 0x104 && t.pc == 0x40) = true := by decide

-- V-CTL-16
theorem test_call_zero_word : gives (step (vmAt 0x00000000 [])) (fun t => t.reg 31 == 0x104 && t.pc == 0) = true := by decide

-- V-CTL-14
theorem test_ret : gives (step (vmAt 0xF800283A [(31, 0x20)])) (fun t => t.pc == 0x20) = true := by decide

-- V-CTL-15
theorem test_ret_misaligned : gives (step (vmAt 0xF800283A [(31, 0x22)])) (fun t => decide (t.status = .faulted (.misalignedAddress .ret 0x104 0x22))) = true := by decide

-- V-LS-3
theorem test_ldw_old_base : gives (step (vmAt 0x08400117 [(1, 0x40)])) (fun t => t.reg 1 == 0x00FF7F80) = true := by decide

-- V-LS-7
theorem test_ldw_misaligned_before_range : gives (step (vmAt 0x00BFFF97 [(2, 9)])) (fun t => decide (t.status = .faulted (.misalignedAddress .ldw 0x104 0xFFFFFFFE)) && t.reg 2 == 9) = true := by decide

-- V-LS-8
theorem test_ldb_sign_extends : gives (step (vmAt 0x08800107 [(1, 0x40)])) (fun t => t.reg 2 == 0xFFFFFF80) = true := by decide

-- V-LS-11
theorem test_ldb_r0 : gives (step (vmAt 0x08000107 [(1, 0x40)])) (fun t => t.reg 0 == 0) = true := by decide

-- V-LS-12
theorem test_ldbu_zero_extends : gives (step (vmAt 0x08800103 [(1, 0x40)])) (fun t => t.reg 2 == 0x80) = true := by decide

-- V-LS-14
theorem test_stw_little_endian : gives (step (vmAt 0x08800215 [(1, 0x40), (2, 0x11223344)])) (fun t => Memory.read t.mem 0x48 == 0x44 && Memory.read t.mem 0x4B == 0x11) = true := by decide

-- V-LS-10
theorem test_stw_misaligned : gives (step (vmAt 0x08800255 [(1, 0x40), (2, 0x11223344)])) (fun t => decide (t.status = .faulted (.misalignedAddress .stw 0x104 0x49)) && Memory.read t.mem 0x49 == 0) = true := by decide

-- V-LS-15
theorem test_stb_low_byte : gives (step (vmAt 0x088000C5 [(1, 0x40), (2, 0x12345678)])) (fun t => Memory.read t.mem 0x43 == 0x78 && Memory.read t.mem 0x42 == 3) = true := by decide

-- V-LS-17
theorem test_stb_out_of_range : gives (step (vmAt 0x00808005 [(2, 0xAB)])) (fun t => decide (t.status = .faulted (.outOfRange .stb 0x104 0x200))) = true := by decide

-- V-UNK-1
theorem test_unknown_opcode_is_logged : gives (step (vmAt 0x00000041 [])) (fun t => t.pc == 0x104 && decide (t.log = [{ addr := 0x100, word := 0x41 }])) = true := by decide

-- V-UNK-2
theorem test_add_with_imm5_is_unknown : gives (step (vmAt 0x0887887A [(1, 1), (2, 2), (3, 9)])) (fun t => t.reg 3 == 9 && t.log.length == 1) = true := by decide

-- V-RUN-1
theorem test_fetch_out_of_range : gives (step { vm [] 0x200 with program := { image := [], instructionCount := 0x81, entryPoint := 0 } })
    (fun t => decide (t.status = .faulted (.outOfRange .fetch 0x200 0x200)) && t.pc == 0x200 && t.ir == 0) = true := by decide

-- V-RUN-3
theorem test_run_of_nothing_halts :
    gives (step (State.reset.loadProgram { image := [], instructionCount := 0, entryPoint := 0 } []))
      (fun t => decide (t.status = .halted) && t.pc == 0) = true := by decide

-- V-CTL-13 (decision D20)
theorem test_call_region_of_post_increment_pc : callTarget 0x20000000 0x10 = 0x20000040 := by decide

-- V-COD-9, V-COD-10
theorem test_encode_masks : encodeI { op := 4, a := 40, b := 1, imm16 := 0x12345 } = 0x4048D144 ∧
    encodeJ { op := 0, imm26 := 0x4000010 } = 0x00000400 := by decide

-- the loader places an instruction where the next step runs it
theorem test_withFetchWord_runs : gives (step (State.reset.withFetchWord 32 0x01800284)) (fun t => t.reg 6 == 10 && t.pc == 4) = true := by
  decide

/-! ### The assembler (95_test_vectors section 2.8 and programs P3, P4) -/

-- V-ASM-1, V-ASM-2
theorem test_hiadj : hiadj16 0x12348000 = 0x1235 ∧ lo16 0x12348000 = 0x8000 ∧ hiadj16 0xFFFF8000 = 0 := by decide

/-- The text of program P3 (source scenario 3). -/
def p3 : String := "dec: addi r2, r2, -1\nret\nmain: movi r2, 3\nloop: call dec\nbne r2, r0, loop"

/-- The text of program P4 (source scenario 4). -/
def p4 : String := ".data x: .word 1337 .text\nmovia r1,x\nldw r2,0(r1)"

theorem test_assemble_p3 : (match assemble OpcodeValues.specDefault .swapSources p3.toList [] with
    | .ok p => decide (p.image = [0x10BFFFC4, 0xF800283A, 0x008000C4, 0x00000000, 0x103FFE1E].flatMap bytesOfWord) && p.instructionCount == 5 && p.entryPoint == 8
    | .error _ => false) = true := by decide +kernel

theorem test_assemble_p4 : (match assemble OpcodeValues.specDefault .swapSources p4.toList [] with
    | .ok p => decide (p.image = [0x00400034, 0x08400304, 0x08800017, 1337].flatMap bytesOfWord) && p.instructionCount == 3 && p.entryPoint == 0
    | .error _ => false) = true := by decide +kernel

-- V-ASM-8
theorem test_assemble_cmple : (match assemble OpcodeValues.specDefault .swapSources "cmple r3, r1, r2".toList [] with
    | .ok p => decide (p.image = bytesOfWord 0x1046403A)
    | .error _ => false) = true := by decide +kernel

theorem test_assemble_unknown_mnemonic : (match assemble OpcodeValues.specDefault .swapSources "nop\nmul r1, r2, r3".toList [] with
    | .error e => decide (e = { line := 1, text := "mul", message := "unknown mnemonic" })
    | .ok _ => false) = true := by decide +kernel

/-! ### Well-formedness: each check refuses an ill-formed term (30_encoding R89, R127) -/

theorem smoke_iFields : ({ op := 4, a := 8, b := 1, imm16 := 0x2345 } : IFields).wellFormed = true ∧
    ({ op := 64, a := 8, b := 1, imm16 := 0 } : IFields).wellFormed = false ∧
    ({ op := 4, a := 40, b := 1, imm16 := 0 } : IFields).wellFormed = false ∧
    ({ op := 4, a := 8, b := 32, imm16 := 0 } : IFields).wellFormed = false ∧
    ({ op := 4, a := 8, b := 1, imm16 := 0x12345 } : IFields).wellFormed = false := by decide

theorem smoke_rFields : ({ op := 0x3A, a := 6, b := 7, c := 5, opx := 0x620 } : RFields).wellFormed = true ∧
    ({ op := 64, a := 6, b := 7, c := 5, opx := 0 } : RFields).wellFormed = false ∧
    ({ op := 0, a := 32, b := 7, c := 5, opx := 0 } : RFields).wellFormed = false ∧
    ({ op := 0, a := 6, b := 32, c := 5, opx := 0 } : RFields).wellFormed = false ∧
    ({ op := 0, a := 6, b := 7, c := 32, opx := 0 } : RFields).wellFormed = false ∧
    ({ op := 0, a := 6, b := 7, c := 5, opx := 2048 } : RFields).wellFormed = false := by decide

theorem smoke_jFields : ({ op := 0, imm26 := 0x10 } : JFields).wellFormed = true ∧
    ({ op := 64, imm26 := 0 } : JFields).wellFormed = false ∧
    ({ op := 0, imm26 := 0x4000010 } : JFields).wellFormed = false := by decide

theorem smoke_program : ({ image := [0, 0, 0, 0], instructionCount := 1, entryPoint := 0 } : Program).wellFormed 4 = true ∧
    ({ image := [0, 0, 0, 0], instructionCount := 1, entryPoint := 0 } : Program).wellFormed 3 = false ∧
    ({ image := [0, 0, 0], instructionCount := 1, entryPoint := 0 } : Program).wellFormed 4 = false ∧
    ({ image := [0, 0, 0, 0], instructionCount := 1, entryPoint := 2 } : Program).wellFormed 4 = false := by decide

theorem smoke_instr : (Instr.stw 31 0xFFFF 31).wellFormed OpcodeValues.specDefault = true := by decide

-- an opcode used twice, the R-format's used for an instruction, and an extended opcode used twice
theorem smoke_opcodeValues : OpcodeValues.specDefault.wellFormed = true ∧
    ({ OpcodeValues.specDefault with addi := 0x14 } : OpcodeValues).wellFormed = false ∧
    ({ OpcodeValues.specDefault with call := 0x3A } : OpcodeValues).wellFormed = false ∧
    ({ OpcodeValues.specDefault with add := 0x39 } : OpcodeValues).wellFormed = false := by decide

/-- A table with the opcodes of `addi` and `ori` exchanged (decision D1: another table can be substituted). -/
def swappedOpcodes : OpcodeValues := { OpcodeValues.specDefault with addi := 0x14, ori := 0x04 }

-- V-ALU-15's word 0x00BFFFD4 is `ori` in the default table and `addi` in this one: 0 + (-1)
theorem test_step_follows_opcode_values :
    gives (step { vmAt 0x00BFFFD4 [] with par := { params with opcodes := swappedOpcodes } })
      (fun t => t.reg 2 == 0xFFFFFFFF) = true := by decide

-- the hypothesis of DecodeOfEncodeIsIdentity, DecodeOfEncodedBytes, OpcodeTableIsUnambiguous and UnusedFieldsAreIgnored
theorem witness_DecodeOfEncodeIsIdentity :
    OpcodeValues.specDefault.wellFormed = true ∧ swappedOpcodes.wellFormed = true := by decide

theorem witness_OpcodeTableIsUnambiguous :
    ((rRows swappedOpcodes)[5].accepts 0x25F = true ∧ (rRows swappedOpcodes)[6].accepts 0x25F = false) ∧
    (iRows swappedOpcodes)[1].op = 0x14 := by decide


/-! ### Witnesses: for each statement with hypotheses, a concrete state and operands that meet all of them, at the boundary
values of each clause -/

/-- The state of a next outcome. -/
def after (o : Result) : State :=
  match o with
  | .next t => t
  | _ => State.reset

/-- `vmAt` with another BRANCH_ALIGN_CHECK. -/
def takenOnly (s : State) : State := { s with par := { s.par with branchAlignCheck := .takenOnly } }

/-- `vmAt` with a host action bound to address 0x40. -/
def withHostAction (s : State) : State := s.addSystemCall "print" 0x40 0

theorem witness_DecodedWordIsTheEncoding :
    decodeWord OpcodeValues.specDefault 0x31CB883A = .ok (.add 5 6 7) ∧ (Instr.add 5 6 7).usesAllFields = true := ⟨rfl, rfl⟩

theorem witness_NumericCodecRoundTrips :
    ({ op := 63, a := 31, b := 31, imm16 := 65535 } : IFields).wellFormed = true ∧
    ({ op := 63, a := 31, b := 31, c := 31, opx := 2047 } : RFields).wellFormed = true ∧
    ({ op := 63, imm26 := 67108863 } : JFields).wellFormed = true := by decide

theorem witness_StepKeepsInvariant :
    (vmAt 0x08800215 [(1, 0x40), (2, 5)]).Inv ∧
    step (vmAt 0x08800215 [(1, 0x40), (2, 5)]) = .next (after (step (vmAt 0x08800215 [(1, 0x40), (2, 5)]))) :=
  ⟨⟨by decide, by decide, by decide, by decide⟩, rfl⟩

theorem witness_StepKeepsPcMultipleOfFour :
    (vmAt 0xF800283A [(31, 0x20)]).pc.toNat % 4 = 0 ∧
    step (vmAt 0xF800283A [(31, 0x20)]) = .next (after (step (vmAt 0xF800283A [(31, 0x20)]))) := ⟨by decide, rfl⟩

theorem witness_StepRunsTheDecodedInstruction :
    (vmAt 0x0887883A []).status = .running ∧ (vmAt 0x0887883A []).atEnd = false ∧
    (vmAt 0x0887883A []).pc.toNat + 4 ≤ (vmAt 0x0887883A []).par.memSize ∧
    decode OpcodeValues.specDefault [Memory.read (vmAt 0x0887883A []).mem 0x100, Memory.read (vmAt 0x0887883A []).mem 0x101,
      Memory.read (vmAt 0x0887883A []).mem 0x102, Memory.read (vmAt 0x0887883A []).mem 0x103] =
      .ok (.add 3 1 2, []) := ⟨by decide, by decide, by decide, rfl⟩

-- the end test at the end address and one instruction past it, where the two values of HALT_CMP differ
theorem witness_RunHaltsAtProgramEnd :
    (vm [] 0x200).par.haltCmp = .eq ∧ (vm [] 0x200).status = .running ∧ (vm [] 0x200).atEnd = true ∧
    (vm [] 0x204).par.haltCmp = .eq ∧ (vm [] 0x204).atEnd = false ∧
    ({ vm [] 0x204 with par := { params with haltCmp := .ge } } : State).atEnd = true := by decide

theorem witness_StoppedMachineDoesNotResume :
    ({ vm [] 0x100 with status := .halted } : State).status = .halted ∧
    ((vm [] 0x100).raise (.outOfRange .ldb 0x104 0x200)).status = .faulted (.outOfRange .ldb 0x104 0x200) := by decide

theorem witness_FetchOutsideMemoryFaults :
    (vm [] 0x204).status = .running ∧ (vm [] 0x204).atEnd = false ∧
    (vm [] 0x204).par.memSize < (vm [] 0x204).pc.toNat + 4 := by decide

theorem witness_UnknownWordIsLoggedOrFaults :
    (vmAt 0x41 []).status = .running ∧ (vmAt 0x41 []).atEnd = false ∧
    (vmAt 0x41 []).pc.toNat + 4 ≤ (vmAt 0x41 []).par.memSize ∧ (vmAt 0x41 []).par.unknownPolicy = .skip ∧
    (match decodeWord OpcodeValues.specDefault (Memory.readWord (vmAt 0x41 []).mem (vmAt 0x41 []).pc.toNat) with
      | .error e => decide (e = .unknownOpcode 1)
      | .ok _ => false) = true := by decide

-- R243
theorem test_unknown_opcode_faults :
    gives (step { vmAt 0x00000041 [] with par := { params with unknownPolicy := .fault } })
      (fun t => decide (t.status = .faulted (.unknownInstruction 0x104 0x41)) && t.log.isEmpty) = true := by decide

-- the last byte and the first address outside, and a destination of r0
theorem witness_RegisterZeroIsHardwired :
    (vm [(1, 0x200)] 0x104).par.memSize < (effectiveAddress ((vm [(1, 0x200)] 0x104).reg 1) 0).toNat + 1 := by decide

theorem witness_ArithmeticIsExactModulo : (31 : RegIx) ≠ 0 := by decide

theorem witness_BranchesOnAlignedTargets :
    ((vm [] 0x104).pc + (0xFEFC : BitVec 16).signExtend 32).toNat % 4 = 0 := by decide

-- taken and not taken, under both values of BRANCH_ALIGN_CHECK
theorem witness_BranchesOnMisalignedTargets :
    ((vm [(1, 3), (2, 4)] 0x104).pc + (0xFFFE : BitVec 16).signExtend 32).toNat % 4 ≠ 0 ∧
    (vm [(1, 3), (2, 4)] 0x104).par.branchAlignCheck = .always ∧
    ¬ (vm [(1, 3), (2, 4)] 0x104).reg 1 = (vm [(1, 3), (2, 4)] 0x104).reg 2 ∧
    (takenOnly (vm [(1, 3), (2, 4)] 0x104)).par.branchAlignCheck = .takenOnly ∧
    ((vm [(1, 3), (2, 4)] 0x104).reg 1).toInt < ((vm [(1, 3), (2, 4)] 0x104).reg 2).toInt ∧
    ((vm [(1, 3), (2, 4)] 0x104).reg 2).toInt ≥ ((vm [(1, 3), (2, 4)] 0x104).reg 1).toInt := by decide

theorem test_beq_not_taken_misaligned_taken_only :
    gives (step (takenOnly (vmAt 0x088001A6 [(1, 3), (2, 4)]))) (fun t => decide (t.status = .running) && t.pc == 0x104) = true := by
  decide

theorem witness_BranchTargetMisalignedByImmediate : (0xFFFFFFFC : Word).toNat % 4 = 0 := by decide

theorem witness_CallTransfersControl :
    (withHostAction (vm [] 0x104)).syscallAt (callTarget (vm [] 0x104).pc 0x11) = none := by decide

theorem witness_SystemCallRunsHostAction :
    (withHostAction (vm [] 0x104)).syscallAt (callTarget (vm [] 0x104).pc 0x10) =
      some { name := "print", address := 0x40, action := 0 } := by decide

-- a system call stays at the instruction after the call, with r0 still 0, whatever the action does (V-CTL-12 with a binding)
theorem test_system_call_keeps_pc :
    gives (exec (.call 0x10) (withHostAction (vm [] 0x104))) (fun t => t.pc == 0x104 && t.reg 0 == 0 && t.draws == 1) = true := rfl

theorem witness_RetLoadsReturnAddress :
    ((vm [(31, 0x20)] 0x104).reg 31).toNat % 4 = 0 ∧ ((vm [(31, 0x21)] 0x104).reg 31).toNat % 4 ≠ 0 := by decide

theorem witness_RetAfterCallReturns :
    (vm [] 0x104).pc.toNat % 4 = 0 ∧ (vm [] 0x104).syscallAt (callTarget (vm [] 0x104).pc 0x10) = none := by decide

-- the last word of memory, the first word outside, and a misaligned address beside each
theorem witness_LoadWord :
    (effectiveAddress ((vm [(1, 0x200)] 0x104).reg 1) 0xFFFC).toNat % 4 = 0 ∧
    (effectiveAddress ((vm [(1, 0x200)] 0x104).reg 1) 0xFFFC).toNat + 4 ≤ (vm [(1, 0x200)] 0x104).par.memSize ∧
    (effectiveAddress ((vm [(1, 0x200)] 0x104).reg 1) 0).toNat % 4 = 0 ∧
    (vm [(1, 0x200)] 0x104).par.memSize < (effectiveAddress ((vm [(1, 0x200)] 0x104).reg 1) 0).toNat + 4 ∧
    (effectiveAddress ((vm [(1, 0x200)] 0x104).reg 1) 0xFFFD).toNat % 4 ≠ 0 ∧
    (effectiveAddress ((vm [(1, 0x200)] 0x104).reg 1) 1).toNat % 4 ≠ 0 := by decide

-- the last byte of memory and the first outside
theorem witness_LoadByte :
    (effectiveAddress ((vm [(1, 0x200)] 0x104).reg 1) 0xFFFF).toNat + 1 ≤ (vm [(1, 0x200)] 0x104).par.memSize ∧
    (vm [(1, 0x200)] 0x104).par.memSize < (effectiveAddress ((vm [(1, 0x200)] 0x104).reg 1) 0).toNat + 1 := by decide

theorem witness_StoreWord :
    (effectiveAddress ((vm [(1, 0x1FC), (2, 7)] 0x104).reg 1) 0).toNat % 4 = 0 ∧
    (effectiveAddress ((vm [(1, 0x1FC), (2, 7)] 0x104).reg 1) 0).toNat + 4 ≤ (vm [(1, 0x1FC), (2, 7)] 0x104).par.memSize ∧
    (effectiveAddress ((vm [(1, 0x1FC), (2, 7)] 0x104).reg 1) 4).toNat % 4 = 0 ∧
    (vm [(1, 0x1FC), (2, 7)] 0x104).par.memSize < (effectiveAddress ((vm [(1, 0x1FC), (2, 7)] 0x104).reg 1) 4).toNat + 4 ∧
    (effectiveAddress ((vm [(1, 0x1FC), (2, 7)] 0x104).reg 1) 3).toNat % 4 ≠ 0 := by decide

theorem witness_StoreByte :
    (effectiveAddress ((vm [(1, 0x1FC), (2, 7)] 0x104).reg 1) 3).toNat + 1 ≤ (vm [(1, 0x1FC), (2, 7)] 0x104).par.memSize ∧
    (vm [(1, 0x1FC), (2, 7)] 0x104).par.memSize <
      (effectiveAddress ((vm [(1, 0x1FC), (2, 7)] 0x104).reg 1) 4).toNat + 1 := by decide

theorem witness_OnlyWordAccessesNeedAlignment :
    (effectiveAddress ((vm [(1, 0x40)] 0x104).reg 1) 0xFFFF).toNat % 4 ≠ 0 := by decide

-- for StoredWordIsLoadedBack and FetchSeesTheStoredWord too
theorem witness_BytesOfAStoredWord :
    (effectiveAddress ((vm [(1, 0x1FC), (3, 0x1FF)] 0x104).reg 1) 0).toNat % 4 = 0 ∧
    (effectiveAddress ((vm [(1, 0x1FC), (3, 0x1FF)] 0x104).reg 1) 0).toNat + 4 ≤
      (vm [(1, 0x1FC), (3, 0x1FF)] 0x104).par.memSize ∧
    ((vm [(1, 0x1FC), (3, 0x1FF)] 0x104).reg 3).toNat =
      (effectiveAddress ((vm [(1, 0x1FC), (3, 0x1FF)] 0x104).reg 1) 0).toNat + 3 := by decide

theorem witness_StoredWordIsLoadedBack :
    (effectiveAddress ((vm [(1, 0x200)] 0x104).reg 1) 0xFFFC).toNat % 4 = 0 ∧
    (effectiveAddress ((vm [(1, 0x200)] 0x104).reg 1) 0xFFFC).toNat + 4 ≤ (vm [(1, 0x200)] 0x104).par.memSize := by decide

theorem witness_FetchSeesTheStoredWord :
    (effectiveAddress ((vm [(1, 0x104), (2, 0x0001883A)] 0x104).reg 1) 0).toNat % 4 = 0 ∧
    (effectiveAddress ((vm [(1, 0x104), (2, 0x0001883A)] 0x104).reg 1) 0).toNat + 4 ≤
      (vm [(1, 0x104), (2, 0x0001883A)] 0x104).par.memSize := by decide

theorem witness_ByteStoredInsideAWord :
    Memory.readWord (Memory.write [(0x41, 2), (0x42, 3)] (0x40 + 3) 0xAA) 0x40 = 0xAA030200 := by decide

-- a misaligned word and a byte outside memory
theorem witness_FaultingInstructionChangesOnlyStatus :
    exec (.ldw 2 1 1) (vm [(1, 0x40)] 0x104) = .next (after (exec (.ldw 2 1 1) (vm [(1, 0x40)] 0x104))) ∧
    (after (exec (.ldw 2 1 1) (vm [(1, 0x40)] 0x104))).status ≠ (vm [(1, 0x40)] 0x104).status ∧
    (after (exec (.stb 2 0 1) (vm [(1, 0x200)] 0x104))).status ≠ (vm [(1, 0x200)] 0x104).status :=
  ⟨rfl, by decide, by decide⟩

theorem witness_OnlyTheDestinationRegisterChanges :
    exec (.add 3 1 2) (vm [(1, 7)] 0x104) = .next (after (exec (.add 3 1 2) (vm [(1, 7)] 0x104))) ∧
    (vm [(1, 7)] 0x104).callsHost (.add 3 1 2) = false ∧ (Instr.add 3 1 2).dest ≠ some 1 ∧
    (withHostAction (vm [] 0x104)).callsHost (.call 0x11) = false ∧ (Instr.call 0x11).dest ≠ some 30 :=
  ⟨rfl, by decide, by decide, by decide, by decide⟩

-- two register files that agree on r1 and r2 and differ in r4
theorem witness_ResultDependsOnSourceRegisters :
    (vm [(1, 7), (2, 5)] 0x104).status = .running ∧ (vm [(1, 7), (2, 5)] 0x104).callsHost (.add 3 1 2) = false ∧
    (∀ r ∈ (Instr.add 3 1 2).sources,
      ({ vm [(1, 7), (2, 5)] 0x104 with regs := (vm [(1, 7), (2, 5), (4, 9)] 0x104).regs } : State).reg r =
        (vm [(1, 7), (2, 5)] 0x104).reg r) ∧
    (vm [(1, 7), (2, 5), (4, 9)] 0x104).reg 4 ≠ (vm [(1, 7), (2, 5)] 0x104).reg 4 ∧
    (after (exec (.add 3 1 2) (vm [(1, 7), (2, 5)] 0x104))).status = .running ∧
    (Instr.add 3 1 2).dest = some 3 := by decide

theorem witness_OnlyStoresAndSystemCallsChangeMemory :
    exec (.ldw 2 0 1) (vm [(1, 0x40)] 0x104) = .next (after (exec (.ldw 2 0 1) (vm [(1, 0x40)] 0x104))) ∧
    (Instr.ldw 2 0 1).isStore = false ∧ (vm [(1, 0x40)] 0x104).callsHost (.ldw 2 0 1) = false := ⟨rfl, rfl, rfl⟩

theorem witness_OnlyControlTransfersChangePc :
    exec (.stb 2 0 1) (vm [(1, 0x40)] 0x104) = .next (after (exec (.stb 2 0 1) (vm [(1, 0x40)] 0x104))) ∧
    (Instr.stb 2 0 1).transfersControl = false := ⟨rfl, rfl⟩

-- for LogGrowsOnlyByUnknownWords too: the step of an unknown word
theorem witness_StepKeepsHostSettings :
    step (withHostAction (vmAt 0x41 [])) = .next (after (step (withHostAction (vmAt 0x41 [])))) ∧
    (after (step (withHostAction (vmAt 0x41 [])))).log ≠ (withHostAction (vmAt 0x41 [])).log := ⟨rfl, by decide⟩

theorem witness_LogGrowsOnlyByUnknownWords :
    step (vmAt 0x41 []) = .next (after (step (vmAt 0x41 []))) := rfl

-- the last byte of an image, and the first byte above it
theorem witness_LoadedImageStandsAtZero :
    3 < (vm [] 0).par.memSize ∧ 4 < (vm [] 0).par.memSize ∧
    Memory.read ((vm [] 0).loadProgram { image := [1, 2, 3, 4], instructionCount := 1, entryPoint := 0 } [(3, 9), (4, 5)]).mem 3 = 4 ∧
    Memory.read ((vm [] 0).loadProgram { image := [1, 2, 3, 4], instructionCount := 1, entryPoint := 0 } [(3, 9), (4, 5)]).mem 4 = 5 := by
  decide

-- a program as long as memory, entered at its last instruction
theorem witness_LoadedProgramMeetsInvariant :
    ({ image := List.replicate 0x200 0, instructionCount := 0x80, entryPoint := 0x1FC } : Program).wellFormed
      (vm [] 0).par.memSize = true := by decide +kernel

-- for LoadProgramState: a restart leaves Faulted, and sends pc to the loaded program's entry point
theorem test_restart_leaves_faulted :
    (((vm [(1, 7)] 0x104).raise (.outOfRange .ldb 0x104 0x200)).restartProgram []).status = .running ∧
    (((vm [(1, 7)] 0x104).raise (.outOfRange .ldb 0x104 0x200)).restartProgram []).pc = 0 ∧
    (((vm [(1, 7)] 0x104).raise (.outOfRange .ldb 0x104 0x200)).restartProgram []).reg 1 = 0 := by decide

theorem witness_EveryMemoryIsAdmitted :
    Memory.wf [(0, 1), (0x1FF, 255)] = true ∧ Memory.within 0x200 [(0, 1), (0x1FF, 255)] = true := by decide

-- the farthest reach in each direction: 4j - (k+1)*4 = 32764 and -32768
theorem witness_AssembledBranchLandsOnLabel :
    Symbols.lookup [("loop", 4 * 8192)] "loop" = some (4 * 8192) ∧
    (-32768 : Int) ≤ 4 * (8192 : Int) - ((0 : Int) + 1) * 4 ∧ 4 * (8192 : Int) - ((0 : Int) + 1) * 4 ≤ 32767 ∧
    (-32768 : Int) ≤ 4 * (0 : Int) - ((8191 : Int) + 1) * 4 ∧ 4 * (0 : Int) - ((8191 : Int) + 1) * 4 ≤ 32767 := by decide

theorem witness_AssembledCallReachesTarget :
    (0x2FFFFFFC : Word).toNat % 4 = 0 ∧ (0x2FFFFFFC : Word).toNat / 2 ^ 28 = (0x20000000 : Word).toNat / 2 ^ 28 := by decide

end Sys2Proof.Tests
end

/-! ### The program counter under a step (10_state R25) -/

section

namespace Sys2Proof.Machine

@[simp] theorem State.runSyscall_pc (s : State) (e : SyscallEntry) : (s.runSyscall e).pc = s.pc := by
  simp [State.runSyscall]

/-- `fetch()` advances `pc` by 4 modulo 2^32, which is itself a multiple of 4 (R26). -/
theorem pc_add_four_mod_four {pc : Word} (h : pc.toNat % 4 = 0) : (pc + 4).toNat % 4 = 0 := by
  rw [BitVec.toNat_add]
  simp only [BitVec.reduceToNat]
  omega

/-- An instruction leaves `pc` where the fetch put it, or sends it to an aligned target (R27). -/
theorem exec_pc_eq_or_aligned {i : Instr} {s t : State} (h : exec i s = .next t) :
    t.pc = s.pc ∨ misaligned t.pc = false := by
  cases exec_effect h with
  | register d v eq => exact .inl (by rw [eq, State.setReg_pc])
  | fault r eq => exact .inl (by rw [eq, State.raise_pc])
  | stay eq => exact .inl (by rw [eq])
  | jump p eq aligned => exact .inr (by rw [eq, State.jump_pc, aligned])
  | call p eq aligned => exact .inr (by rw [eq, State.jump_pc, aligned])
  | host e eq => exact .inl (by rw [eq, State.runSyscall_pc, State.setReg_pc])
  | store a v w eq => exact .inl (by rw [eq])

theorem exec_pc_mod_four {i : Instr} {s t : State} (hpc : s.pc.toNat % 4 = 0) (h : exec i s = .next t) :
    t.pc.toNat % 4 = 0 := by
  rcases exec_pc_eq_or_aligned h with heq | haligned
  · rwa [heq]
  · exact (aligned_iff t.pc).1 haligned

theorem State.unknown_pc {s t : State} (h : s.unknown = .next t) : t.pc = s.pc := by
  rcases State.unknown_next h with ⟨_, rfl⟩ | ⟨_, rfl⟩ <;> rfl

theorem State.execute_pc_mod_four {s t : State} (hpc : s.pc.toNat % 4 = 0) (h : s.execute = .next t) :
    t.pc.toNat % 4 = 0 := by
  rcases s.execute_cases with ⟨i, _, hexec⟩ | ⟨e, _, hunknown⟩
  · exact exec_pc_mod_four hpc (hexec.symm.trans h)
  · rwa [State.unknown_pc (hunknown.symm.trans h)]

/-- Settles O13: only a step that fetches moves `pc`, first by 4 and then at most to an aligned target. -/
theorem stepKeepsPcMultipleOfFour : Obligations.StepKeepsPcMultipleOfFour := by
  unfold Obligations.StepKeepsPcMultipleOfFour
  intro s t hpc h
  rcases step_cases h with ⟨_, rfl⟩ | ⟨_, _, rfl⟩ | ⟨_, _, _, rfl⟩ | ⟨_, _, _, hexecute⟩
  · exact hpc
  · exact hpc
  · exact hpc
  · exact State.execute_pc_mod_four (pc_add_four_mod_four hpc) hexecute

end Sys2Proof.Machine
end

/-! ### The codec as arithmetic on numbers (30_encoding R87, R88) -/

section

namespace Sys2Proof

/-- A field of a word is a bit range of its number: drop `start` bits, keep `len`. -/
theorem extractLsb'_toNat_eq_div_mod (w : Word) (start len : Nat) :
    (w.extractLsb' start len).toNat = w.toNat / 2 ^ start % 2 ^ len := by
  rw [BitVec.extractLsb'_toNat, Nat.shiftRight_eq_div_pow]

theorem opOf_toNat (w : Word) : (opOf w).toNat = w.toNat % 2 ^ 6 := by
  rw [opOf, extractLsb'_toNat_eq_div_mod, Nat.pow_zero, Nat.div_one]

theorem aOf_toNat (w : Word) : (aOf w).toNat = w.toNat / 2 ^ 27 % 2 ^ 5 := extractLsb'_toNat_eq_div_mod w 27 5

theorem bOf_toNat (w : Word) : (bOf w).toNat = w.toNat / 2 ^ 22 % 2 ^ 5 := extractLsb'_toNat_eq_div_mod w 22 5

theorem cOf_toNat (w : Word) : (cOf w).toNat = w.toNat / 2 ^ 17 % 2 ^ 5 := extractLsb'_toNat_eq_div_mod w 17 5

theorem imm16Of_toNat (w : Word) : (imm16Of w).toNat = w.toNat / 2 ^ 6 % 2 ^ 16 := extractLsb'_toNat_eq_div_mod w 6 16

theorem opxOf_toNat (w : Word) : (opxOf w).toNat = w.toNat / 2 ^ 6 % 2 ^ 11 := extractLsb'_toNat_eq_div_mod w 6 11

theorem imm26Of_toNat (w : Word) : (imm26Of w).toNat = w.toNat / 2 ^ 6 % 2 ^ 26 := extractLsb'_toNat_eq_div_mod w 6 26

/-- Settles O5: each view's fields are the bit ranges of the word's number. -/
theorem decodeViewsAreProjections : Obligations.DecodeViewsAreProjections := by
  unfold Obligations.DecodeViewsAreProjections
  intro w
  refine ⟨?_, ?_, ?_⟩
  · simp only [decodeI, opOf_toNat, imm16Of_toNat, bOf_toNat, aOf_toNat]
  · simp only [decodeR, opOf_toNat, opxOf_toNat, cOf_toNat, bOf_toNat, aOf_toNat]
  · simp only [decodeJ, opOf_toNat, imm26Of_toNat]

/-- Cutting a number to `n` bits is masking it with `n` ones. -/
theorem ofNat_toNat_eq_and_mask (n x : Nat) : (BitVec.ofNat n x).toNat = x &&& (2 ^ n - 1) := by
  rw [BitVec.toNat_ofNat, Nat.and_two_pow_sub_one_eq_mod]

/-- Appending the fields shifts each one to its place (R81). -/
theorem packI_toNat (a b : RegIx) (imm : BitVec 16) (op : BitVec 6) :
    (packI a b imm op).toNat = a.toNat <<< 27 ||| b.toNat <<< 22 ||| imm.toNat <<< 6 ||| op.toNat := by
  simp only [packI, BitVec.toNat_append]
  simp only [Nat.shiftLeft_or_distrib, ← Nat.shiftLeft_add, Nat.reduceAdd]

theorem packR_toNat (a b c : RegIx) (opx : BitVec 11) (op : BitVec 6) :
    (packR a b c opx op).toNat =
      a.toNat <<< 27 ||| b.toNat <<< 22 ||| c.toNat <<< 17 ||| opx.toNat <<< 6 ||| op.toNat := by
  simp only [packR, BitVec.toNat_append]
  simp only [Nat.shiftLeft_or_distrib, ← Nat.shiftLeft_add, Nat.reduceAdd]

theorem packJ_toNat (imm : BitVec 26) (op : BitVec 6) : (packJ imm op).toNat = imm.toNat <<< 6 ||| op.toNat :=
  BitVec.toNat_append imm op

theorem encodeI_toNat (f : IFields) : (encodeI f).toNat =
    (f.a &&& 0x1F) <<< 27 ||| (f.b &&& 0x1F) <<< 22 ||| (f.imm16 &&& 0xFFFF) <<< 6 ||| (f.op &&& 0x3F) := by
  rw [encodeI, packI_toNat]
  simp only [ofNat_toNat_eq_and_mask, Nat.reducePow, Nat.reduceSub]

theorem encodeR_toNat (f : RFields) : (encodeR f).toNat =
    (f.a &&& 0x1F) <<< 27 ||| (f.b &&& 0x1F) <<< 22 ||| (f.c &&& 0x1F) <<< 17 ||| (f.opx &&& 0x7FF) <<< 6 |||
      (f.op &&& 0x3F) := by
  rw [encodeR, packR_toNat]
  simp only [ofNat_toNat_eq_and_mask, Nat.reducePow, Nat.reduceSub]

theorem encodeJ_toNat (f : JFields) : (encodeJ f).toNat = (f.imm26 &&& 0x3FFFFFF) <<< 6 ||| (f.op &&& 0x3F) := by
  rw [encodeJ, packJ_toNat]
  simp only [ofNat_toNat_eq_and_mask, Nat.reducePow, Nat.reduceSub]

theorem eq_ofNat_of_toNat_eq {w : Word} {n : Nat} (h : w.toNat = n) : w = BitVec.ofNat 32 n := by
  rw [← h, BitVec.ofNat_toNat, BitVec.setWidth_eq]

/-- Settles O4: each encoded word's number is the formula in masked fields; the two worked immediates are evaluated. -/
theorem encodeMasksEveryField : Obligations.EncodeMasksEveryField := by
  unfold Obligations.EncodeMasksEveryField
  refine ⟨fun f => ?_, fun f => ?_, fun f => ?_, ?_, ?_⟩
  · exact eq_ofNat_of_toNat_eq (encodeI_toNat f)
  · exact eq_ofNat_of_toNat_eq (encodeR_toNat f)
  · exact eq_ofNat_of_toNat_eq (encodeJ_toNat f)
  · decide
  · decide

end Sys2Proof
end

/-! ### Arithmetic, logic and immediate shifts (40_alu R141 to R146, R156, R157) -/

section

namespace Sys2Proof.Machine

/-- A register write is the frame the statements name: the value in its register (`r0` discards it), the rest as before. -/
theorem State.writesReg_setReg (s : State) (d : RegIx) (v : Word) : WritesReg s d v (s.setReg d v) :=
  ⟨fun r => s.reg_setReg d r v, fun a => by rw [State.setReg_mem], s.setReg_eq_with_regs d v⟩

/-- An instruction that answers one register write meets its statement once the value written is the stated one. -/
theorem answers_writesReg {o : Result} {s : State} {d : RegIx} {v w : Word} (h : o = .next (s.setReg d v)) (hv : v = w) :
    Answers o (WritesReg s d w) :=
  ⟨s.setReg d v, h, hv ▸ s.writesReg_setReg d v⟩

theorem exec_add (s : State) (c a b : RegIx) : exec (.add c a b) s = .next (s.setReg c (s.reg a + s.reg b)) := rfl

theorem exec_sub (s : State) (c a b : RegIx) : exec (.sub c a b) s = .next (s.setReg c (s.reg a - s.reg b)) := rfl

theorem exec_and (s : State) (c a b : RegIx) : exec (.and c a b) s = .next (s.setReg c (s.reg a &&& s.reg b)) := rfl

theorem exec_or (s : State) (c a b : RegIx) : exec (.or c a b) s = .next (s.setReg c (s.reg a ||| s.reg b)) := rfl

theorem exec_xor (s : State) (c a b : RegIx) : exec (.xor c a b) s = .next (s.setReg c (s.reg a ^^^ s.reg b)) := rfl

theorem exec_nor (s : State) (c a b : RegIx) : exec (.nor c a b) s = .next (s.setReg c (~~~(s.reg a ||| s.reg b))) := rfl

theorem exec_slli (s : State) (c a : RegIx) (n : BitVec 5) :
    exec (.slli c a n) s = .next (s.setReg c (s.reg a <<< n.toNat)) := rfl

theorem exec_srli (s : State) (c a : RegIx) (n : BitVec 5) :
    exec (.srli c a n) s = .next (s.setReg c (s.reg a >>> n.toNat)) := rfl

/-- Settles O20: each of the six instructions is one register write of its rule's value. -/
theorem rFormatArithmeticAndLogic : Obligations.RFormatArithmeticAndLogic := by
  unfold Obligations.RFormatArithmeticAndLogic
  intro s c a b
  exact ⟨answers_writesReg (exec_add s c a b) rfl, answers_writesReg (exec_sub s c a b) rfl,
    answers_writesReg (exec_and s c a b) rfl, answers_writesReg (exec_or s c a b) rfl,
    answers_writesReg (exec_xor s c a b) rfl, answers_writesReg (exec_nor s c a b) rfl⟩

/-- A left shift multiplies by a power of two and drops the carry out of the word. -/
theorem shiftLeft_eq_ofNat_mul (w : Word) (n : Nat) : w <<< n = BitVec.ofNat 32 (w.toNat * 2 ^ n) := by
  apply BitVec.eq_of_toNat_eq
  rw [BitVec.toNat_shiftLeft, BitVec.toNat_ofNat, Nat.shiftLeft_eq]

/-- A logical right shift divides by a power of two: zeros come in at the top. -/
theorem ushiftRight_eq_ofNat_div (w : Word) (n : Nat) : w >>> n = BitVec.ofNat 32 (w.toNat / 2 ^ n) := by
  apply eq_ofNat_of_toNat_eq
  rw [BitVec.toNat_ushiftRight, Nat.shiftRight_eq_div_pow]

/-- Settles O23: each shift is one register write, and shifting by IMM5 is multiplying or dividing by its power of two. -/
theorem immediateShifts : Obligations.ImmediateShifts := by
  unfold Obligations.ImmediateShifts
  intro s c a n
  exact ⟨answers_writesReg (exec_slli s c a n) (shiftLeft_eq_ofNat_mul (s.reg a) n.toNat),
    answers_writesReg (exec_srli s c a n) (ushiftRight_eq_ofNat_div (s.reg a) n.toNat)⟩

end Sys2Proof.Machine
end

/-! ### Register compares (41_compare R170 to R173) -/

section

namespace Sys2Proof.Machine

/-- `bool(c)` (R10) is the statements' 1 or 0 once the computed test decides the stated relation. -/
theorem boolWord_eq_ite {c : Bool} {p : Prop} [Decidable p] (h : c = true ↔ p) : boolWord c = if p then 1 else 0 :=
  if_congr h rfl rfl

theorem geSigned_iff (x y : Word) : geSigned x y = true ↔ x.toInt ≥ y.toInt := decide_eq_true_iff

theorem ltSigned_iff (x y : Word) : ltSigned x y = true ↔ x.toInt < y.toInt := decide_eq_true_iff

theorem exec_cmpeq (s : State) (c a b : RegIx) :
    exec (.cmpeq c a b) s = .next (s.setReg c (boolWord (s.reg a == s.reg b))) := rfl

theorem exec_cmpne (s : State) (c a b : RegIx) :
    exec (.cmpne c a b) s = .next (s.setReg c (boolWord (s.reg a != s.reg b))) := rfl

theorem exec_cmpge (s : State) (c a b : RegIx) :
    exec (.cmpge c a b) s = .next (s.setReg c (boolWord (geSigned (s.reg a) (s.reg b)))) := rfl

theorem exec_cmplt (s : State) (c a b : RegIx) :
    exec (.cmplt c a b) s = .next (s.setReg c (boolWord (ltSigned (s.reg a) (s.reg b)))) := rfl

/-- Settles O25: each compare is one register write of `bool` of a test that decides its relation. -/
theorem registerCompares : Obligations.RegisterCompares := by
  unfold Obligations.RegisterCompares
  intro s c a b
  refine ⟨?_, ?_, ?_, ?_⟩
  · exact answers_writesReg (exec_cmpeq s c a b) (boolWord_eq_ite beq_iff_eq)
  · exact answers_writesReg (exec_cmpne s c a b) (boolWord_eq_ite bne_iff_ne)
  · exact answers_writesReg (exec_cmpge s c a b) (boolWord_eq_ite (geSigned_iff (s.reg a) (s.reg b)))
  · exact answers_writesReg (exec_cmplt s c a b) (boolWord_eq_ite (ltSigned_iff (s.reg a) (s.reg b)))

end Sys2Proof.Machine
end

/-! ### Decoding what the encoder makes (30_encoding sections 3 to 5) -/

section

namespace Sys2Proof

/-- An I-format instruction comes back from its word if its row stands in the table. -/
theorem decodeWord_rawI {v : OpcodeValues} (h : v.wellFormed = true) {op : BitVec 6}
    {f : RegIx → RegIx → BitVec 16 → Instr} (hr : (⟨op, f⟩ : IRow) ∈ iRows v) (b a : RegIx) (imm : BitVec 16) :
    decodeWord v (rawI op b a imm).encode = .ok (f b a imm) := by
  rw [encode_rawI]
  exact decodeWord_packI h hr b a imm

/-- The same for a row whose instruction names A before B, as the branches do (R113). -/
theorem decodeWord_rawI_branch {v : OpcodeValues} (h : v.wellFormed = true) {op : BitVec 6}
    {f : RegIx → RegIx → BitVec 16 → Instr} (hr : (⟨op, fun b a imm => f a b imm⟩ : IRow) ∈ iRows v) (a b : RegIx)
    (imm : BitVec 16) : decodeWord v (rawI op b a imm).encode = .ok (f a b imm) :=
  decodeWord_rawI h hr b a imm

/-- The same for a row whose instruction names A last, as the memory operand `imm16(rA)` does (R113). -/
theorem decodeWord_rawI_memory {v : OpcodeValues} (h : v.wellFormed = true) {op : BitVec 6}
    {f : RegIx → BitVec 16 → RegIx → Instr} (hr : (⟨op, fun b a imm => f b imm a⟩ : IRow) ∈ iRows v) (b : RegIx)
    (imm : BitVec 16) (a : RegIx) : decodeWord v (rawI op b a imm).encode = .ok (f b imm a) :=
  decodeWord_rawI h hr b a imm

/-- A three-register instruction comes back from its word if its row stands in the table. -/
theorem decodeWord_rawR {v : OpcodeValues} (h : v.wellFormed = true) {x : BitVec 6} {f : RegIx → RegIx → RegIx → Instr}
    (hr : (⟨opxOfSix x, opxFullMask, fun c a b _ => f c a b⟩ : RRow) ∈ rRows v) (c a b : RegIx) :
    decodeWord v (rawR v.rType (opxOfSix x) c a b).encode = .ok (f c a b) := by
  rw [encode_rawR]
  exact decodeWord_packR h hr c a b (RRow.accepts_full x _)

/-- A packed shift-immediate is its row's instruction, whatever its unused field B holds (R92). -/
theorem decodeWord_packR_shift {v : OpcodeValues} (h : v.wellFormed = true) {x : BitVec 6}
    {f : RegIx → RegIx → BitVec 5 → Instr}
    (hr : (⟨opxOfSix x, opxShiftMask, fun c a _ n => f c a n⟩ : RRow) ∈ rRows v) (c a b : RegIx) (n : BitVec 5) :
    decodeWord v (packR a b c (opxOfSix x ||| n.setWidth 11) v.rType) = .ok (f c a n) := by
  rw [decodeWord_packR h hr c a b (RRow.accepts_shift x n _), extractLsb'_opx_amount]

/-- A shift-immediate comes back from its word if its row stands in the table. -/
theorem decodeWord_rawShift {v : OpcodeValues} (h : v.wellFormed = true) {x : BitVec 6}
    {f : RegIx → RegIx → BitVec 5 → Instr}
    (hr : (⟨opxOfSix x, opxShiftMask, fun c a _ n => f c a n⟩ : RRow) ∈ rRows v) (c a : RegIx) (n : BitVec 5) :
    decodeWord v (rawShift v.rType (opxOfSix x) c a n).encode = .ok (f c a n) := by
  rw [rawShift, encode_rawR]
  exact decodeWord_packR_shift h hr c a 0 n

/-- A packed word with the opcode of `br` is that branch, whatever its unused fields A and B hold (R92). -/
theorem decodeWord_packI_br {v : OpcodeValues} (h : v.wellFormed = true) (b a : RegIx) (imm : BitVec 16) :
    decodeWord v (packI a b imm v.br) = .ok (.br imm) :=
  decodeWord_packI h (r := ⟨v.br, fun _ _ imm => .br imm⟩) (by simp [iRows]) b a imm

/-- A packed word with the extended opcode of `ret` is `ret`, whatever its unused fields A, B and C hold (R92). -/
theorem decodeWord_packR_ret {v : OpcodeValues} (h : v.wellFormed = true) (c a b : RegIx) :
    decodeWord v (packR a b c (opxOfSix v.ret) v.rType) = .ok .ret :=
  decodeWord_packR h (r := ⟨opxOfSix v.ret, opxFullMask, fun _ _ _ _ => .ret⟩) (by simp [rRows]) c a b
    (RRow.accepts_full v.ret _)

/-- Settles O2: by the shape of the instruction's word, each of whose rows stands in the table. -/
theorem decodeOfEncodeIsIdentity : Obligations.DecodeOfEncodeIsIdentity := by
  unfold Obligations.DecodeOfEncodeIsIdentity
  intro v h i
  cases i
  case add c a b | sub c a b | and c a b | or c a b | xor c a b | nor c a b | sll c a b | srl c a b | cmpeq c a b |
      cmpne c a b | cmpge c a b | cmplt c a b =>
    exact decodeWord_rawR h (by simp [rRows]) c a b
  case slli c a n | srli c a n => exact decodeWord_rawShift h (by simp [rRows]) c a n
  case ret => exact (congrArg (decodeWord v) (encode_rawR _ _ _ _ _)).trans (decodeWord_packR_ret h 0 31 0)
  case call n => exact (congrArg (decodeWord v) (encode_rawJ _ _)).trans (decodeWord_packJ h n)
  case br imm => exact (congrArg (decodeWord v) (encode_rawI _ _ _ _)).trans (decodeWord_packI_br h 0 0 imm)
  case addi b a imm | andi b a imm | andhi b a imm | ori b a imm | orhi b a imm | xori b a imm | xorhi b a imm |
      cmpeqi b a imm | cmpnei b a imm | cmpgei b a imm | cmplti b a imm =>
    exact decodeWord_rawI h (by simp [iRows]) b a imm
  case beq a b imm | bne a b imm | bge a b imm | blt a b imm => exact decodeWord_rawI_branch h (by simp [iRows]) a b imm
  case ldw b imm a | stw b imm a | ldb b imm a | ldbu b imm a | stb b imm a =>
    exact decodeWord_rawI_memory h (by simp [iRows]) b imm a

/-- Settles O9: the rows of the four instructions take no value from the fields they do not use. -/
theorem unusedFieldsAreIgnored : Obligations.UnusedFieldsAreIgnored := by
  unfold Obligations.UnusedFieldsAreIgnored
  intro v h a b c n imm
  exact ⟨decodeWord_packR_shift h (by simp [rRows]) c a b n, decodeWord_packR_shift h (by simp [rRows]) c a b n,
    decodeWord_packI_br h b a imm, decodeWord_packR_ret h c a b⟩

/-- A word is its four bytes joined (R52, R55). -/
@[simp] theorem wordOfBytes_byteOfWord (w : Word) :
    wordOfBytes (byteOfWord w 0) (byteOfWord w 1) (byteOfWord w 2) (byteOfWord w 3) = w := by
  apply BitVec.eq_of_getLsbD_eq
  intro i hi
  simp only [wordOfBytes, byteOfWord, BitVec.getLsbD_append, BitVec.getLsbD_extractLsb']
  interval_cases i <;> simp

theorem decode_encodeBytes_append (v : OpcodeValues) (i : Instr) (rest : List Byte) :
    decode v (encodeBytes v i ++ rest) = (decodeWord v (encode v i)).map (fun j => (j, rest)) := by
  simp [encodeBytes, decode]

/-- Settles O3: the four bytes rebuild the word of O2. -/
theorem decodeOfEncodedBytes : Obligations.DecodeOfEncodedBytes := by
  unfold Obligations.DecodeOfEncodedBytes
  intro v h i rest
  rw [decode_encodeBytes_append, decodeOfEncodeIsIdentity v h i]
  rfl

end Sys2Proof
end

/-! ### The invariant under a step (10_state R21, R25; 20_memory R50) -/

section

namespace Sys2Proof.Machine

@[simp] theorem State.setReg_slot_zero (s : State) (i : RegIx) (v : Word) : (s.setReg i v).regs[0] = s.regs[0] := by
  unfold State.setReg
  split
  · rfl
  · next hi => exact Vector.getElem_set_ne i.isLt _ fun e => hi (BitVec.eq_of_toNat_eq e)

/-- A word write inside the memory keeps every listed byte inside it. -/
theorem Memory.writeWord_within {m : Memory} {size a : Nat} (v : Word) (h : Memory.within size m = true)
    (ha : a + 4 ≤ size) : Memory.within size (Memory.writeWord m a v) = true :=
  Memory.write_within _ (Memory.write_within _ (Memory.write_within _ (Memory.write_within _ h
    (by omega)) (by omega)) (by omega)) (by omega)

theorem Memory.writeWidth_within {m : Memory} {size a : Nat} (v : Word) (w : Width) (h : Memory.within size m = true)
    (ha : a + w.bytes ≤ size) : Memory.within size (Memory.writeWidth m a v w) = true := by
  cases w
  · exact Memory.write_within _ h ha
  · exact Memory.writeWord_within v h ha

/-- The invariant speaks of `pc`, slot 0, memory and parameters alone. -/
theorem State.Inv.congr {s t : State} (hs : s.Inv) (hpc : t.pc = s.pc) (hslot : t.regs[0] = s.regs[0])
    (hmem : t.mem = s.mem) (hpar : t.par = s.par) : t.Inv where
  pcAligned := hpc ▸ hs.pcAligned
  slotZero := hslot.trans hs.slotZero
  memCanonical := hmem ▸ hs.memCanonical
  memInside := hpar ▸ hmem ▸ hs.memInside

theorem State.Inv.setReg {s : State} (hs : s.Inv) (i : RegIx) (v : Word) : (s.setReg i v).Inv :=
  hs.congr (s.setReg_pc i v) (s.setReg_slot_zero i v) (s.setReg_mem i v) (s.setReg_par i v)

theorem State.Inv.raise {s : State} (hs : s.Inv) (r : FaultRecord) : (s.raise r).Inv := hs.congr rfl rfl rfl rfl

theorem State.Inv.jump {s : State} (hs : s.Inv) {p : Word} (hp : p.toNat % 4 = 0) : (s.jump p).Inv where
  pcAligned := hp
  slotZero := hs.slotZero
  memCanonical := hs.memCanonical
  memInside := hs.memInside

theorem State.Inv.runSyscall {s : State} (hs : s.Inv) (e : SyscallEntry) : (s.runSyscall e).Inv where
  pcAligned := hs.pcAligned
  slotZero := s.runSyscall_slot_zero e
  memCanonical := Memory.ofCells_wf _ _
  memInside := Memory.ofCells_within _ _

theorem State.Inv.store {s : State} (hs : s.Inv) {a : Nat} (v : Word) {w : Width} (ha : a + w.bytes ≤ s.par.memSize) :
    ({ s with mem := Memory.writeWidth s.mem a v w } : State).Inv where
  pcAligned := hs.pcAligned
  slotZero := hs.slotZero
  memCanonical := Memory.writeWidth_wf a v w hs.memCanonical
  memInside := Memory.writeWidth_within v w hs.memInside ha

/-- A fetch moves `pc` by 4 and keeps the rest of what the invariant speaks of. -/
theorem State.Inv.fetched {s : State} (hs : s.Inv) (w : Word) : ({ s with ir := w, pc := s.pc + 4 } : State).Inv where
  pcAligned := pc_add_four_mod_four hs.pcAligned
  slotZero := hs.slotZero
  memCanonical := hs.memCanonical
  memInside := hs.memInside

/-- Each effect an instruction can have keeps the invariant. -/
theorem exec_inv {i : Instr} {s t : State} (hs : s.Inv) (h : exec i s = .next t) : t.Inv := by
  cases exec_effect h with
  | register d v eq => exact eq ▸ hs.setReg d v
  | fault r eq => exact eq ▸ hs.raise r
  | stay eq => exact eq ▸ hs
  | jump p eq aligned => exact eq ▸ hs.jump ((aligned_iff p).1 aligned)
  | call p eq aligned => exact eq ▸ (hs.setReg raIndex s.pc).jump ((aligned_iff p).1 aligned)
  | host e eq => exact eq ▸ (hs.setReg raIndex s.pc).runSyscall e
  | store a v w eq inside => exact eq ▸ hs.store v inside

theorem State.unknown_inv {s t : State} (hs : s.Inv) (h : s.unknown = .next t) : t.Inv := by
  rcases State.unknown_next h with ⟨_, rfl⟩ | ⟨_, rfl⟩
  · exact hs.congr rfl rfl rfl rfl
  · exact hs.raise _

theorem State.execute_inv {s t : State} (hs : s.Inv) (h : s.execute = .next t) : t.Inv := by
  rcases s.execute_cases with ⟨i, _, hexec⟩ | ⟨e, _, hunknown⟩
  · exact exec_inv hs (hexec.symm.trans h)
  · exact State.unknown_inv hs (hunknown.symm.trans h)

/-- Settles O12: each case of a step keeps the invariant, the executing one from the state the fetch leaves. -/
theorem stepKeepsInvariant : Obligations.StepKeepsInvariant := by
  unfold Obligations.StepKeepsInvariant
  intro s t hs h
  rcases step_cases h with ⟨_, rfl⟩ | ⟨_, _, rfl⟩ | ⟨_, _, _, rfl⟩ | ⟨_, _, _, hexecute⟩
  · exact hs
  · exact hs.congr rfl rfl rfl rfl
  · exact hs.raise _
  · exact State.execute_inv (hs.fetched _) hexecute

end Sys2Proof.Machine
end

/-! ### The codec's other direction (30_encoding sections 3 to 6) -/

section

namespace Sys2Proof

/-- Settles O1: the encoder is run on each instruction; that its word decodes back is O2. -/
theorem workedEncodingsDecodeAndEncode : Obligations.WorkedEncodingsDecodeAndEncode := by
  unfold Obligations.WorkedEncodingsDecodeAndEncode
  intro p hp
  have hencode : encode OpcodeValues.specDefault p.2 = p.1 := by
    revert p
    decide
  exact ⟨hencode ▸ decodeOfEncodeIsIdentity _ OpcodeValues.specDefault_wellFormed p.2, hencode⟩

/-! #### Every word is built from its fields (R89) -/

theorem packI_fields (w : Word) : packI (aOf w) (bOf w) (imm16Of w) (opOf w) = w := by
  apply BitVec.eq_of_getLsbD_eq
  intro i hi
  simp only [packI, aOf, bOf, imm16Of, opOf, BitVec.getLsbD_append, BitVec.getLsbD_extractLsb']
  interval_cases i <;> simp

theorem packR_fields (w : Word) : packR (aOf w) (bOf w) (cOf w) (opxOf w) (opOf w) = w := by
  apply BitVec.eq_of_getLsbD_eq
  intro i hi
  simp only [packR, aOf, bOf, cOf, opxOf, opOf, BitVec.getLsbD_append, BitVec.getLsbD_extractLsb']
  interval_cases i <;> simp

theorem packJ_fields (w : Word) : packJ (imm26Of w) (opOf w) = w := by
  apply BitVec.eq_of_getLsbD_eq
  intro i hi
  simp only [packJ, imm26Of, opOf, BitVec.getLsbD_append, BitVec.getLsbD_extractLsb']
  interval_cases i <;> simp

theorem encodeI_decodeI (w : Word) : encodeI (decodeI w) = w := by
  simpa [encodeI, decodeI] using packI_fields w

theorem encodeR_decodeR (w : Word) : encodeR (decodeR w) = w := by
  simpa [encodeR, decodeR] using packR_fields w

theorem encodeJ_decodeJ (w : Word) : encodeJ (decodeJ w) = w := by
  simpa [encodeJ, decodeJ] using packJ_fields w

theorem decodeI_encodeI {f : IFields} (h : f.wellFormed = true) : decodeI (encodeI f) = f := by
  simp only [IFields.wellFormed, Bool.and_eq_true, decide_eq_true_eq] at h
  obtain ⟨⟨⟨hop, ha⟩, hb⟩, himm⟩ := h
  simp [decodeI, encodeI, Nat.mod_eq_of_lt, hop, ha, hb, himm]

theorem decodeR_encodeR {f : RFields} (h : f.wellFormed = true) : decodeR (encodeR f) = f := by
  simp only [RFields.wellFormed, Bool.and_eq_true, decide_eq_true_eq] at h
  obtain ⟨⟨⟨⟨hop, ha⟩, hb⟩, hc⟩, hopx⟩ := h
  simp [decodeR, encodeR, Nat.mod_eq_of_lt, hop, ha, hb, hc, hopx]

theorem decodeJ_encodeJ {f : JFields} (h : f.wellFormed = true) : decodeJ (encodeJ f) = f := by
  simp only [JFields.wellFormed, Bool.and_eq_true, decide_eq_true_eq] at h
  obtain ⟨hop, himm⟩ := h
  simp [decodeJ, encodeJ, Nat.mod_eq_of_lt, hop, himm]

/-- Settles O6: in each format, packing and projecting undo each other. -/
theorem numericCodecRoundTrips : Obligations.NumericCodecRoundTrips := by
  unfold Obligations.NumericCodecRoundTrips
  exact ⟨fun _ => decodeI_encodeI, fun _ => decodeR_encodeR, fun _ => decodeJ_encodeJ,
    fun w => ⟨encodeI_decodeI w, encodeR_decodeR w, encodeJ_decodeJ w⟩⟩

/-! #### What a word that decodes is -/

/-- A word decodes by the one row of its format that dispatch finds (R94). -/
theorem decodeWord_eq_ok {v : OpcodeValues} {w : Word} {i : Instr} (h : decodeWord v w = .ok i) :
    (opOf w = v.rType ∧ ∃ r ∈ rRows v, r.accepts (opxOf w) = true ∧ i = r.instr (cOf w) (aOf w) (bOf w) (imm5Of w)) ∨
    (opOf w ≠ v.rType ∧ opOf w = v.call ∧ i = .call (imm26Of w)) ∨
    (opOf w ≠ v.rType ∧ opOf w ≠ v.call ∧ ∃ r ∈ iRows v, r.op = opOf w ∧ i = r.instr (bOf w) (aOf w) (imm16Of w)) := by
  unfold decodeWord at h
  split at h
  · next hop =>
    split at h
    · next r hr => exact .inl ⟨hop, r, List.mem_of_find?_eq_some hr, by simpa using List.find?_some hr, (Except.ok.inj h).symm⟩
    · cases h
  · next hop =>
    split at h
    · next hcall => exact .inr (.inl ⟨hop, hcall, (Except.ok.inj h).symm⟩)
    · next hcall =>
      split at h
      · next r hr =>
        exact .inr (.inr ⟨hop, hcall, r, List.mem_of_find?_eq_some hr, by simpa using List.find?_some hr,
          (Except.ok.inj h).symm⟩)
      · cases h

/-- A word is unknown where no row of its format is its own (R105). -/
theorem decodeWord_eq_error {v : OpcodeValues} {w : Word} {e : DecodeError} (h : decodeWord v w = .error e) :
    (opOf w = v.rType ∧ ∀ r ∈ rRows v, r.accepts (opxOf w) ≠ true) ∨
    (opOf w ≠ v.rType ∧ opOf w ≠ v.call ∧ ∀ r ∈ iRows v, r.op ≠ opOf w) := by
  unfold decodeWord at h
  split at h
  · next hop =>
    split at h
    · cases h
    · next hr => exact .inl ⟨hop, by simpa using hr⟩
  · next hop =>
    split at h
    · cases h
    · next hcall =>
      split at h
      · cases h
      · next hr => exact .inr ⟨hop, hcall, by simpa using hr⟩

/-- A word decodes exactly if a row of its format is its own. -/
theorem decodeWord_isOk_iff (v : OpcodeValues) (w : Word) :
    (∃ i, decodeWord v w = .ok i) ↔
      (opOf w = v.rType ∧ ∃ r ∈ rRows v, r.accepts (opxOf w) = true) ∨
      (opOf w ≠ v.rType ∧ (opOf w = v.call ∨ ∃ r ∈ iRows v, r.op = opOf w)) := by
  cases hd : decodeWord v w with
  | ok i =>
    refine iff_of_true ⟨i, rfl⟩ ?_
    rcases decodeWord_eq_ok hd with ⟨hop, r, hr, ha, _⟩ | ⟨hop, hcall, _⟩ | ⟨hop, _, r, hr, hrow, _⟩
    · exact .inl ⟨hop, r, hr, ha⟩
    · exact .inr ⟨hop, .inl hcall⟩
    · exact .inr ⟨hop, .inr ⟨r, hr, hrow⟩⟩
  | error e =>
    refine iff_of_false (by simp) ?_
    rcases decodeWord_eq_error hd with ⟨hop, hno⟩ | ⟨hop, hcall, hno⟩
    · rintro (⟨_, r, hr, ha⟩ | ⟨hop', _⟩)
      · exact hno r hr ha
      · exact hop' hop
    · rintro (⟨hop', _⟩ | ⟨_, hcall' | ⟨r, hr, hrow⟩⟩)
      · exact hop hop'
      · exact hcall hcall'
      · exact hno r hr hrow

/-- A full-mask row accepts its extended opcode alone (D9). -/
theorem RRow.accepts_full_iff (x opx : BitVec 11) (f : RegIx → RegIx → RegIx → BitVec 5 → Instr) :
    (⟨x, opxFullMask, f⟩ : RRow).accepts opx = true ↔ opx = x := by
  have hmask : opx &&& opxFullMask = opx := BitVec.and_allOnes
  simp [RRow.accepts, hmask]

/-- A shift-immediate row leaves the amount out of its test (R95). -/
theorem RRow.accepts_shift_iff (x opx : BitVec 11) (f : RegIx → RegIx → RegIx → BitVec 5 → Instr) :
    (⟨x, opxShiftMask, f⟩ : RRow).accepts opx = true ↔ opx &&& 0x7E0 = x := by
  simp [RRow.accepts, opxShiftMask]

/-- The I- and J-format opcodes of the default table (R96). -/
theorem specDefault_opcode_iff (op : BitVec 6) :
    (op ≠ OpcodeValues.specDefault.rType ∧
      (op = OpcodeValues.specDefault.call ∨ ∃ r ∈ iRows OpcodeValues.specDefault, r.op = op)) ↔
    op.toNat ∈ [0x00, 0x03, 0x04, 0x05, 0x06, 0x07, 0x08, 0x0C, 0x0E, 0x10, 0x14, 0x15, 0x16, 0x17, 0x18, 0x1C, 0x1E,
      0x20, 0x26, 0x2C, 0x34, 0x3C] := by
  revert op
  decide

theorem opxOfSix_toNat (x : BitVec 6) : (opxOfSix x).toNat = x.toNat * 32 := by
  rw [opxOfSix, BitVec.toNat_append, Nat.shiftLeft_eq]
  exact Nat.or_zero _

/-- The extended opcodes the default table accepts (R97). -/
theorem specDefault_accepts_iff (opx : BitVec 11) :
    (∃ r ∈ rRows OpcodeValues.specDefault, r.accepts opx = true) ↔
    opx.toNat ∈ [0x0A0, 0x0C0, 0x100, 0x1C0, 0x200, 0x260, 0x2C0, 0x300, 0x360, 0x3C0, 0x400, 0x620, 0x720] ∨
      (opx &&& 0x7E0).toNat ∈ [0x240, 0x340] := by
  simp only [rRows, List.mem_cons, List.not_mem_nil, or_and_right, exists_or, exists_eq_left, or_false,
    RRow.accepts_full_iff, RRow.accepts_shift_iff, ← BitVec.toNat_inj]
  simp only [opxOfSix_toNat, OpcodeValues.specDefault, BitVec.reduceToNat, Nat.reduceMul]
  exact iff_of_eq (by ac_rfl)

/-- Settles O7: dispatch by rows, with the default table's rows written out as numbers. -/
theorem decodableWordsExactly : Obligations.DecodableWordsExactly := by
  unfold Obligations.DecodableWordsExactly
  intro w
  rw [decodeWord_isOk_iff, specDefault_opcode_iff, specDefault_accepts_iff, or_comm, ← BitVec.toNat_inj]
  rfl

/-- An I-format row's instruction that uses every field is encoded from the fields the row takes it from. -/
theorem encode_iRow {v : OpcodeValues} {r : IRow} (hr : r ∈ iRows v) {b a : RegIx} {imm : BitVec 16}
    (hu : (r.instr b a imm).usesAllFields = true) : encode v (r.instr b a imm) = packI a b imm r.op := by
  fin_cases hr
  iterate 3 exact encode_rawI _ _ _ _
  · cases hu -- `br`
  all_goals exact encode_rawI _ _ _ _

/-- Under the full mask the extended opcode accepted is the one encoded. -/
theorem encode_rawR_of_accepts {rType : BitVec 6} {x opx : BitVec 11} {c a b : RegIx}
    {f : RegIx → RegIx → RegIx → BitVec 5 → Instr} (ha : (⟨x, opxFullMask, f⟩ : RRow).accepts opx = true) :
    (rawR rType x c a b).encode = packR a b c opx rType := by
  rw [encode_rawR, (RRow.accepts_full_iff x opx f).1 ha]

/-- An R-format row's instruction that uses every field is encoded from the fields and the extended opcode the row takes it
from: its mask is the full one. -/
theorem encode_rRow {v : OpcodeValues} {r : RRow} (hr : r ∈ rRows v) {c a b : RegIx} {n : BitVec 5} {opx : BitVec 11}
    (ha : r.accepts opx = true) (hu : (r.instr c a b n).usesAllFields = true) :
    encode v (r.instr c a b n) = packR a b c opx v.rType := by
  fin_cases hr
  · cases hu -- `ret`
  iterate 4 exact encode_rawR_of_accepts ha
  · cases hu -- `slli`
  iterate 3 exact encode_rawR_of_accepts ha
  · cases hu -- `srli`
  all_goals exact encode_rawR_of_accepts ha

/-- Settles O8: the row a word was decoded by gives the fields it was packed from. -/
theorem decodedWordIsTheEncoding : Obligations.DecodedWordIsTheEncoding := by
  unfold Obligations.DecodedWordIsTheEncoding
  intro v w i h hu
  rcases decodeWord_eq_ok h with ⟨hop, r, hr, ha, rfl⟩ | ⟨_, hcall, rfl⟩ | ⟨_, _, r, hr, hrow, rfl⟩
  · rw [encode_rRow hr ha hu, ← hop, packR_fields]
  · exact (encode_rawJ _ _).trans (hcall ▸ packJ_fields w)
  · rw [encode_iRow hr hu, hrow, packI_fields]

/-- No row stands twice in the R-format table. -/
theorem rRows_nodup {v : OpcodeValues} (h : v.wellFormed = true) : (rRows v).Nodup := by
  apply List.Nodup.of_map RRow.opx
  rw [v.extended_eq]
  exact (OpcodeValues.extended_nodup h).map opxOfSix_injective

/-- The R-format's opcode, the J-format's and those of the I-format rows are all different. -/
theorem iRows_ops_nodup {v : OpcodeValues} (h : v.wellFormed = true) :
    (v.rType :: v.call :: (iRows v).map IRow.op).Nodup :=
  v.primary_eq ▸ OpcodeValues.primary_nodup h

/-- Settles O59: two rows that match one word have one key, and a well-formed table repeats no key. -/
theorem opcodeTableIsUnambiguous : Obligations.OpcodeTableIsUnambiguous := by
  unfold Obligations.OpcodeTableIsUnambiguous
  intro v h
  obtain ⟨hrType, hcall, hops⟩ : v.rType ∉ v.call :: (iRows v).map IRow.op ∧ v.call ∉ (iRows v).map IRow.op ∧
      ((iRows v).map IRow.op).Nodup := by simpa only [List.nodup_cons] using iRows_ops_nodup h
  refine ⟨?_, ?_, ?_⟩
  · intro opx j k hj hk haj hak
    have hsix := (RRow.accepts_six (List.getElem_mem hj) haj).symm.trans (RRow.accepts_six (List.getElem_mem hk) hak)
    exact (rRows_nodup h).getElem_inj_iff.1
      (rRows_eq_of_six h (List.getElem_mem hj) (List.getElem_mem hk) hsix)
  · rintro _ j k hj hk rfl hkj
    have hmem : (iRows v)[j].op ∈ (iRows v).map IRow.op := List.mem_map_of_mem (List.getElem_mem hj)
    refine ⟨?_, fun e => hrType (e ▸ List.mem_cons_of_mem _ hmem), fun e => hcall (e ▸ hmem)⟩
    have hj' : j < ((iRows v).map IRow.op).length := by simpa using hj
    have hk' : k < ((iRows v).map IRow.op).length := by simpa using hk
    exact (hops.getElem_inj_iff (hi := hj') (hj := hk')).1 (by simpa using hkj.symm)
  · exact fun e => hrType (e ▸ List.mem_cons_self)

end Sys2Proof
end

/-! ### Bytes and words in memory (20_memory R52, R53, R61) -/

section

namespace Sys2Proof.Machine

/-! #### A word is its four bytes -/

theorem byteOfWord_wordOfBytes (b0 b1 b2 b3 : Byte) {k : Nat} (hk : k < 4) :
    byteOfWord (wordOfBytes b0 b1 b2 b3) k = [b0, b1, b2, b3][k] := by
  apply BitVec.eq_of_getLsbD_eq
  intro i hi
  simp only [wordOfBytes, byteOfWord, BitVec.getLsbD_append, BitVec.getLsbD_extractLsb']
  interval_cases k <;> interval_cases i <;> rfl

theorem byteOfWord_readWord (m : Memory) (a : Nat) {k : Nat} (hk : k < 4) :
    byteOfWord (Memory.readWord m a) k = Memory.read m (a + k) := by
  rw [Memory.readWord, byteOfWord_wordOfBytes _ _ _ _ hk]
  interval_cases k <;> rfl

theorem Memory.read_writeWord_byte (m : Memory) (a : Nat) (v : Word) {k : Nat} (hk : k < 4) :
    Memory.read (Memory.writeWord m a v) (a + k) = byteOfWord v k := by
  interval_cases k <;> simp [Memory.writeWord, Memory.read_write]

theorem Memory.read_writeWord_other (m : Memory) {a x : Nat} (v : Word) (h : x < a ∨ a + 4 ≤ x) :
    Memory.read (Memory.writeWord m a v) x = Memory.read m x := by
  simp only [Memory.writeWord, Memory.read_write]
  rw [if_neg (by omega), if_neg (by omega), if_neg (by omega), if_neg (by omega)]

/-- A word read where it was written is that word. -/
@[simp] theorem Memory.readWord_writeWord_same (m : Memory) (a : Nat) (v : Word) :
    Memory.readWord (Memory.writeWord m a v) a = v := by
  simp [Memory.readWord, Memory.writeWord, Memory.read_write]

/-- Settles O43: byte `j` of the word read is the byte at its address plus `j`. -/
theorem byteStoredInsideAWord : Obligations.ByteStoredInsideAWord := by
  unfold Obligations.ByteStoredInsideAWord
  intro m a k j c _ hj
  calc byteOfWord (Memory.readWord (Memory.write m (a + k) c) a) j
      = Memory.read (Memory.write m (a + k) c) (a + j) := byteOfWord_readWord _ a hj
    _ = if a + j = a + k then c else Memory.read m (a + j) := Memory.read_write m (a + k) (a + j) c
    _ = if j = k then c else byteOfWord (Memory.readWord m a) j := by
      simp only [byteOfWord_readWord m a hj, Nat.add_left_cancel_iff]

/-! #### An image written from an address on -/

theorem Memory.read_writeBytes_other {size : Nat} {m : Memory} {a x : Nat} {l : List Byte}
    (h : x < a ∨ a + l.length ≤ x) : Memory.read (Memory.writeBytes size m a l) x = Memory.read m x := by
  induction l generalizing m a with
  | nil => rfl
  | cons v t ih =>
    rw [List.length_cons] at h
    rw [Memory.writeBytes, ih (by omega)]
    split
    · exact Memory.read_write_other m v (by omega)
    · rfl

theorem Memory.read_writeBytes_inside {size : Nat} {m : Memory} {a k : Nat} {l : List Byte} (hk : k < l.length)
    (hs : a + k < size) : Memory.read (Memory.writeBytes size m a l) (a + k) = l[k] := by
  induction l generalizing m a k with
  | nil => cases hk
  | cons v t ih =>
    rw [Memory.writeBytes]
    cases k with
    | zero =>
      rw [Memory.read_writeBytes_other (by omega), if_pos (by omega)]
      exact Memory.read_write_same m a v
    | succ k =>
      have := ih (m := if a < size then Memory.write m a v else m) (a := a + 1) (k := k) (by simpa using hk) (by omega)
      rwa [Nat.add_right_comm] at this

@[simp] theorem State.loadProgram_mem (s : State) (p : Program) (memInit : List Host.Cell) :
    (s.loadProgram p memInit).mem =
      Memory.writeBytes s.par.memSize (Memory.ofCells s.par.memSize memInit) 0 p.image := rfl

/-- Settles O55: an address inside memory is one the image reaches, or one no image byte is written at. -/
theorem loadedImageStandsAtZero : Obligations.LoadedImageStandsAtZero := by
  unfold Obligations.LoadedImageStandsAtZero
  intro s p memInit k hk
  split
  · next h => simpa using Memory.read_writeBytes_inside (a := 0) h (by simpa using hk)
  · exact Memory.read_writeBytes_other (by omega)

/-! #### Every canonical memory is its own draw -/

theorem Memory.le_of_mem_wfFrom {m : Memory} {lo : Nat} (h : Memory.wfFrom lo m = true) {c : Host.Cell} (hc : c ∈ m) :
    lo ≤ c.1 := by
  induction m generalizing lo with
  | nil => cases hc
  | cons d t ih =>
    simp only [Memory.wfFrom, Bool.and_eq_true, decide_eq_true_eq] at h
    obtain ⟨⟨hlo, _⟩, ht⟩ := h
    rcases List.mem_cons.1 hc with rfl | hc
    · exact hlo
    · have := ih ht hc
      omega

theorem Memory.erase_eq_self {m : Memory} {a : Nat} (h : ∀ c ∈ m, c.1 ≠ a) : Memory.erase m a = m := by
  induction m with
  | nil => rfl
  | cons d t ih =>
    rw [Memory.erase, if_neg (h d List.mem_cons_self).symm, ih fun c hc => h c (List.mem_cons_of_mem d hc)]

/-- A byte below every listed address is put in front. -/
theorem Memory.write_eq_cons {m : Memory} {a : Nat} {v : Byte} (h : Memory.wfFrom (a + 1) m = true)
    (hv : v ≠ Memory.unlisted) : Memory.write m a v = (a, v) :: m := by
  have hlt : ∀ c ∈ m, a < c.1 := fun c hc => Memory.le_of_mem_wfFrom h hc
  rw [Memory.write, if_neg hv, Memory.erase_eq_self fun c hc => (hlt c hc).ne']
  cases m with
  | nil => rfl
  | cons d t => rw [Memory.insert, if_pos (hlt d List.mem_cons_self)]

theorem Memory.ofCells_eq_self {size : Nat} {m : Memory} {lo : Nat} (hwf : Memory.wfFrom lo m = true)
    (hin : Memory.within size m = true) : Memory.ofCells size m = m := by
  induction m generalizing lo with
  | nil => rfl
  | cons c t ih =>
    simp only [Memory.wfFrom, Bool.and_eq_true, decide_eq_true_eq] at hwf
    simp only [Memory.within, List.all_cons, Bool.and_eq_true, decide_eq_true_eq] at hin
    obtain ⟨⟨_, hv⟩, ht⟩ := hwf
    obtain ⟨hc, hin⟩ := hin
    rw [Memory.ofCells, if_pos hc, ih ht hin, Memory.write_eq_cons ht hv]

/-- Settles O56: the cells of a canonical memory stand at rising addresses, so each is put in front of those above it. -/
theorem everyMemoryIsAdmitted : Obligations.EveryMemoryIsAdmitted := by
  unfold Obligations.EveryMemoryIsAdmitted
  exact fun _ _ hwf hin => Memory.ofCells_eq_self hwf hin

/-! #### A program loaded (70 R271, R272) -/

/-- Settles O60: loading writes canonically inside memory, and a well-formed program's image and text fit there. -/
theorem loadedProgramMeetsInvariant : Obligations.LoadedProgramMeetsInvariant := by
  unfold Obligations.LoadedProgramMeetsInvariant
  intro s p memInit h
  simp only [Program.wellFormed, Bool.and_eq_true, decide_eq_true_eq, beq_iff_eq] at h
  obtain ⟨⟨himage, htext⟩, hentry⟩ := h
  refine ⟨?_, ?_, ?_⟩
  · exact {
      pcAligned := hentry
      slotZero := rfl
      memCanonical := Memory.writeBytes_wf _ _ _ (Memory.ofCells_wf _ _)
      memInside := Memory.writeBytes_within _ _ (Memory.ofCells_within _ _) }
  · intro k hk
    rw [loadedImageStandsAtZero s p memInit k (by omega), dif_pos hk]
  · exact htext.trans himage

theorem State.loadProgram_reg (s : State) (p : Program) (memInit : List Host.Cell) (r : RegIx) :
    (s.loadProgram p memInit).reg r = 0 := by
  simp [State.reg, State.loadProgram]

/-- Settles O54: a restart is a load of the program the state holds, and a load reads of the old state only its parameters,
SYSCALLS, outputs and draws. -/
theorem loadProgramState : Obligations.LoadProgramState := by
  unfold Obligations.LoadProgramState
  refine ⟨?_, ?_, ?_⟩
  · intro s p memInit
    exact ⟨s.loadProgram_reg p memInit, rfl, rfl, rfl, rfl, rfl, rfl, rfl, rfl, rfl⟩
  · intro t memInit
    refine ⟨t.loadProgram_reg t.program memInit, rfl, rfl, rfl, rfl, rfl, rfl, rfl, ?_, rfl⟩
    intro s hpar
    simp only [State.restartProgram, State.loadProgram, hpar]
  · intro s p memInit
    rfl

end Sys2Proof.Machine
end

/-! ### Loads and stores (43_loadstore) -/

section

namespace Sys2Proof.Machine

theorem Answers.imp {o : Result} {P Q : State → Prop} (h : Answers o P) (hPQ : ∀ t, P t → Q t) : Answers o Q := by
  obtain ⟨t, ho, ht⟩ := h
  exact ⟨t, ho, hPQ t ht⟩

/-! #### The fault of an access (R247) -/

theorem State.accessFault_of_misaligned (s : State) (site : FaultSite) {a : Word} (h : a.toNat % 4 ≠ 0) :
    s.accessFault site .word a = some (.misalignedAddress site s.pc a) := by
  rw [State.accessFault, if_pos ⟨rfl, (misaligned_iff a).2 h⟩]

/-- An access whose width asks for no other address passes the alignment test. -/
theorem not_misaligned_access {w : Width} {a : Word} (hal : w = .word → a.toNat % 4 = 0) :
    ¬ (w = .word ∧ misaligned a = true) := fun ⟨hw, hm⟩ => (misaligned_iff a).1 hm (hal hw)

theorem State.accessFault_of_outOfRange {s : State} (site : FaultSite) {w : Width} {a : Word}
    (hal : w = .word → a.toNat % 4 = 0) (h : s.par.memSize < a.toNat + w.bytes) :
    s.accessFault site w a = some (.outOfRange site s.pc a) := by
  have hrange : ¬ s.inRange a w.bytes = true := fun hr => by
    have := (s.inRange_iff a w.bytes).1 hr
    omega
  rw [State.accessFault, if_neg (not_misaligned_access hal), if_neg hrange]

theorem State.accessFault_of_inside {s : State} (site : FaultSite) {w : Width} {a : Word}
    (hal : w = .word → a.toNat % 4 = 0) (h : a.toNat + w.bytes ≤ s.par.memSize) : s.accessFault site w a = none := by
  rw [State.accessFault, if_neg (not_misaligned_access hal), if_pos ((s.inRange_iff a w.bytes).2 h)]

/-! #### What a load and a store answer -/

theorem State.load_of_fault {s : State} {site : FaultSite} {w : Width} {a : Word} {r : FaultRecord}
    (h : s.accessFault site w a = some r) (ext : Word → Word) (b : RegIx) :
    s.load site w ext b a = .next (s.raise r) := by
  rw [State.load, h]

theorem State.load_of_inside {s : State} (site : FaultSite) {w : Width} {a : Word} (hal : w = .word → a.toNat % 4 = 0)
    (h : a.toNat + w.bytes ≤ s.par.memSize) (ext : Word → Word) (b : RegIx) :
    s.load site w ext b a = .next (s.setReg b (ext (Memory.readWidth s.mem a.toNat w))) := by
  rw [State.load, State.accessFault_of_inside site hal h]

theorem State.store_of_fault {s : State} {site : FaultSite} {w : Width} {a : Word} {r : FaultRecord}
    (h : s.accessFault site w a = some r) (v : Word) : s.store site w a v = .next (s.raise r) := by
  rw [State.store, h]

theorem State.store_of_inside {s : State} (site : FaultSite) {w : Width} {a : Word} (hal : w = .word → a.toNat % 4 = 0)
    (h : a.toNat + w.bytes ≤ s.par.memSize) (v : Word) :
    s.store site w a v = .next { s with mem := Memory.writeWidth s.mem a.toNat v w } := by
  rw [State.store, State.accessFault_of_inside site hal h]

theorem answers_faults {o : Result} {s : State} {r : FaultRecord} (h : o = .next (s.raise r)) : Answers o (Faults s r) :=
  ⟨s.raise r, h, rfl⟩

theorem answers_faults_load {s : State} {site : FaultSite} {w : Width} {a : Word} {r : FaultRecord}
    (h : s.accessFault site w a = some r) (ext : Word → Word) (b : RegIx) :
    Answers (s.load site w ext b a) (Faults s r) := answers_faults (State.load_of_fault h ext b)

theorem answers_faults_store {s : State} {site : FaultSite} {w : Width} {a : Word} {r : FaultRecord}
    (h : s.accessFault site w a = some r) (v : Word) : Answers (s.store site w a v) (Faults s r) :=
  answers_faults (State.store_of_fault h v)

/-! #### The bytes an access moves -/

/-- A word stored is the frame the statements name, its bytes least significant first. -/
theorem State.writesMem_writeWord (s : State) (a : Nat) (v : Word) :
    WritesMem s a [byteOfWord v 0, byteOfWord v 1, byteOfWord v 2, byteOfWord v 3]
      { s with mem := Memory.writeWord s.mem a v } := by
  refine ⟨?_, fun x hx => Memory.read_writeWord_other s.mem v hx, rfl⟩
  intro k hk
  have hk4 : k < 4 := hk
  rw [Memory.read_writeWord_byte s.mem a v hk4]
  interval_cases k <;> rfl

theorem State.writesMem_write (s : State) (a : Nat) (v : Byte) :
    WritesMem s a [v] { s with mem := Memory.write s.mem a v } := by
  refine ⟨?_, fun x hx => Memory.read_write_other s.mem v ?_, rfl⟩
  · intro k hk
    obtain rfl : k = 0 := Nat.lt_one_iff.1 hk
    exact Memory.read_write_same s.mem a v
  · rw [List.length_singleton] at hx
    omega

theorem extractLsb'_setWidth_byte (v : Byte) : (v.setWidth 32).extractLsb' 0 8 = v := by
  apply BitVec.eq_of_toNat_eq
  have := v.isLt
  rw [BitVec.extractLsb'_toNat, BitVec.toNat_setWidth]
  omega

/-- `ldb` extends the sign of the byte it read (R223). -/
theorem sext8_setWidth (v : Byte) : sext8 (v.setWidth 32) = v.signExtend 32 := by
  rw [sext8, extractLsb'_setWidth_byte]

/-- `ldbu` extends the byte it read with zeros (R224). -/
theorem zext8_setWidth (v : Byte) : zext8 (v.setWidth 32) = v.setWidth 32 := by
  rw [zext8, extractLsb'_setWidth_byte]

/-! #### The instructions -/

theorem exec_ldw (s : State) (b a : RegIx) (imm : BitVec 16) :
    exec (.ldw b imm a) s = s.load .ldw .word id b (effectiveAddress (s.reg a) imm) := rfl

theorem exec_ldb (s : State) (b a : RegIx) (imm : BitVec 16) :
    exec (.ldb b imm a) s = s.load .ldb .byte sext8 b (effectiveAddress (s.reg a) imm) := rfl

theorem exec_ldbu (s : State) (b a : RegIx) (imm : BitVec 16) :
    exec (.ldbu b imm a) s = s.load .ldbu .byte zext8 b (effectiveAddress (s.reg a) imm) := rfl

theorem exec_stw (s : State) (b a : RegIx) (imm : BitVec 16) :
    exec (.stw b imm a) s = s.store .stw .word (effectiveAddress (s.reg a) imm) (s.reg b) := rfl

theorem exec_stb (s : State) (b a : RegIx) (imm : BitVec 16) :
    exec (.stb b imm a) s = s.store .stb .byte (effectiveAddress (s.reg a) imm) (s.reg b) := rfl

theorem exec_ldw_of_inside {s : State} {a : RegIx} {imm : BitVec 16}
    (hal : (effectiveAddress (s.reg a) imm).toNat % 4 = 0)
    (h : (effectiveAddress (s.reg a) imm).toNat + 4 ≤ s.par.memSize) (b : RegIx) :
    exec (.ldw b imm a) s = .next (s.setReg b (Memory.readWord s.mem (effectiveAddress (s.reg a) imm).toNat)) :=
  (exec_ldw s b a imm).trans (State.load_of_inside .ldw (w := .word) (fun _ => hal) h id b)

theorem exec_stw_of_inside {s : State} {a : RegIx} {imm : BitVec 16}
    (hal : (effectiveAddress (s.reg a) imm).toNat % 4 = 0)
    (h : (effectiveAddress (s.reg a) imm).toNat + 4 ≤ s.par.memSize) (b : RegIx) :
    exec (.stw b imm a) s =
      .next { s with mem := Memory.writeWord s.mem (effectiveAddress (s.reg a) imm).toNat (s.reg b) } :=
  (exec_stw s b a imm).trans (State.store_of_inside .stw (w := .word) (fun _ => hal) h (s.reg b))

theorem exec_ldb_of_inside {s : State} {a : RegIx} {imm : BitVec 16}
    (h : (effectiveAddress (s.reg a) imm).toNat + 1 ≤ s.par.memSize) (b : RegIx) :
    exec (.ldb b imm a) s =
      .next (s.setReg b ((Memory.read s.mem (effectiveAddress (s.reg a) imm).toNat).signExtend 32)) := by
  rw [exec_ldb, State.load_of_inside .ldb (w := .byte) (fun hw => nomatch hw) h, Memory.readWidth, sext8_setWidth]

theorem exec_ldbu_of_inside {s : State} {a : RegIx} {imm : BitVec 16}
    (h : (effectiveAddress (s.reg a) imm).toNat + 1 ≤ s.par.memSize) (b : RegIx) :
    exec (.ldbu b imm a) s =
      .next (s.setReg b ((Memory.read s.mem (effectiveAddress (s.reg a) imm).toNat).setWidth 32)) := by
  rw [exec_ldbu, State.load_of_inside .ldbu (w := .byte) (fun hw => nomatch hw) h, Memory.readWidth, zext8_setWidth]

theorem exec_stb_of_inside {s : State} {a : RegIx} {imm : BitVec 16}
    (h : (effectiveAddress (s.reg a) imm).toNat + 1 ≤ s.par.memSize) (b : RegIx) :
    exec (.stb b imm a) s =
      .next { s with mem := Memory.write s.mem (effectiveAddress (s.reg a) imm).toNat (byteOfWord (s.reg b) 0) } :=
  (exec_stb s b a imm).trans (State.store_of_inside .stb (w := .byte) (fun hw => nomatch hw) h (s.reg b))

/-- Settles O36: the three cases are those of the access, and an access inside memory loads the word at its address. -/
theorem loadWord : Obligations.LoadWord := by
  unfold Obligations.LoadWord
  intro s b a imm ea
  refine ⟨?_, ?_, ?_⟩
  · exact fun hm => answers_faults_load (s.accessFault_of_misaligned .ldw hm) id b
  · exact fun hal hr => answers_faults_load (State.accessFault_of_outOfRange .ldw (fun _ => hal) hr) id b
  · exact fun hal h => answers_writesReg (exec_ldw_of_inside hal h b) rfl

/-- Settles O37: a byte access has no alignment case. -/
theorem loadByte : Obligations.LoadByte := by
  unfold Obligations.LoadByte
  intro s b a imm ea
  refine ⟨fun hr => ⟨?_, ?_⟩, fun h => ⟨?_, ?_⟩⟩
  · exact answers_faults_load (State.accessFault_of_outOfRange .ldb (w := .byte) (fun hw => nomatch hw) hr) sext8 b
  · exact answers_faults_load (State.accessFault_of_outOfRange .ldbu (w := .byte) (fun hw => nomatch hw) hr) zext8 b
  · exact answers_writesReg (exec_ldb_of_inside h b) rfl
  · exact answers_writesReg (exec_ldbu_of_inside h b) rfl

/-- Settles O38: the three cases are those of the access, and an access inside memory writes the word's four bytes. -/
theorem storeWord : Obligations.StoreWord := by
  unfold Obligations.StoreWord
  intro s b a imm ea
  refine ⟨?_, ?_, ?_⟩
  · exact fun hm => answers_faults_store (s.accessFault_of_misaligned .stw hm) (s.reg b)
  · exact fun hal hr => answers_faults_store (State.accessFault_of_outOfRange .stw (fun _ => hal) hr) (s.reg b)
  · exact fun hal h => ⟨_, exec_stw_of_inside hal h b, s.writesMem_writeWord ea.toNat (s.reg b)⟩

/-- Settles O39: a byte access has no alignment case. -/
theorem storeByte : Obligations.StoreByte := by
  unfold Obligations.StoreByte
  intro s b a imm ea
  refine ⟨fun hr => ?_, fun h => ?_⟩
  · exact answers_faults_store (State.accessFault_of_outOfRange .stb (w := .byte) (fun hw => nomatch hw) hr) (s.reg b)
  · exact ⟨_, exec_stb_of_inside h b, s.writesMem_write ea.toNat _⟩

theorem Faults.status {s t : State} {r : FaultRecord} (h : Faults s r t) : t.status = .faulted r := by rw [h]

theorem WritesReg.status {s t : State} {d : RegIx} {v : Word} (h : WritesReg s d v t) : t.status = s.status := by
  obtain ⟨_, _, ht⟩ := h
  rw [ht]

theorem WritesMem.status {s t : State} {a : Nat} {l : List Byte} (h : WritesMem s a l t) : t.status = s.status := by
  obtain ⟨_, _, ht⟩ := h
  rw [ht]

/-- Settles O40: the misaligned cases of O36 and O38, and both cases of O37 and O39. -/
theorem onlyWordAccessesNeedAlignment : Obligations.OnlyWordAccessesNeedAlignment := by
  unfold Obligations.OnlyWordAccessesNeedAlignment
  intro s b a imm
  obtain ⟨hldw, _, _⟩ := loadWord s b a imm
  obtain ⟨hstw, _, _⟩ := storeWord s b a imm
  obtain ⟨hldOut, hldIn⟩ := loadByte s b a imm
  obtain ⟨hstOut, hstIn⟩ := storeByte s b a imm
  refine ⟨fun hm => ⟨hldw hm, hstw hm⟩, ?_⟩
  simp only [List.forall_mem_cons, List.not_mem_nil, false_imp_iff, implies_true, and_true]
  rcases Nat.lt_or_ge s.par.memSize ((effectiveAddress (s.reg a) imm).toNat + 1) with hout | hin
  · obtain ⟨hldb, hldbu⟩ := hldOut hout
    exact ⟨hldb.imp fun t ht => .inr ⟨_, _, _, ht.status⟩, hldbu.imp fun t ht => .inr ⟨_, _, _, ht.status⟩,
      (hstOut hout).imp fun t ht => .inr ⟨_, _, _, ht.status⟩⟩
  · obtain ⟨hldb, hldbu⟩ := hldIn hin
    exact ⟨hldb.imp fun t ht => .inl ht.status, hldbu.imp fun t ht => .inl ht.status,
      (hstIn hin).imp fun t ht => .inl ht.status⟩

/-! #### What is read back after `stw` -/

/-- What later instructions see of the state after `stw`. -/
theorem exec_stw_stored {s : State} {a : RegIx} {imm : BitVec 16}
    (hal : (effectiveAddress (s.reg a) imm).toNat % 4 = 0)
    (h : (effectiveAddress (s.reg a) imm).toNat + 4 ≤ s.par.memSize) (b : RegIx) :
    ∃ t, exec (.stw b imm a) s = .next t ∧ (∀ r, t.reg r = s.reg r) ∧ t.par = s.par ∧
      t.mem = Memory.writeWord s.mem (effectiveAddress (s.reg a) imm).toNat (s.reg b) :=
  ⟨_, exec_stw_of_inside hal h b, fun _ => rfl, rfl, rfl⟩

/-- Settles O41: the load reads the word where the store wrote it. -/
theorem storedWordIsLoadedBack : Obligations.StoredWordIsLoadedBack := by
  unfold Obligations.StoredWordIsLoadedBack
  intro s b a d imm hal h
  obtain ⟨t, ht, hreg, hpar, hmem⟩ := exec_stw_stored hal h b
  have hload := exec_ldw_of_inside (s := t) (a := a) (imm := imm) (by rwa [hreg]) (by rwa [hreg, hpar]) d
  refine ⟨t, ht, answers_writesReg hload ?_⟩
  rw [hmem, hreg, Memory.readWord_writeWord_same]

@[simp] theorem effectiveAddress_zero (base : Word) : effectiveAddress base 0 = base := by
  simp [effectiveAddress, simm]

/-- Settles O42: the byte read is one of the four the store wrote. -/
theorem bytesOfAStoredWord : Obligations.BytesOfAStoredWord := by
  unfold Obligations.BytesOfAStoredWord
  intro s b a d e imm k hk hal h he
  obtain ⟨t, ht, hreg, hpar, hmem⟩ := exec_stw_stored hal h b
  have hea : (effectiveAddress (t.reg e) 0).toNat = (effectiveAddress (s.reg a) imm).toNat + k := by
    rw [effectiveAddress_zero, hreg, he]
  refine ⟨t, ht, answers_writesReg (exec_ldbu_of_inside (by rw [hea, hpar]; omega) d) ?_⟩
  rw [hmem, hea, Memory.read_writeWord_byte _ _ _ hk, byteOfWord]

theorem State.fetch_of_inside {s : State} (h : s.pc.toNat + 4 ≤ s.par.memSize) :
    s.fetch = .ok { s with ir := Memory.readWord s.mem s.pc.toNat, pc := s.pc + 4 } := by
  rcases s.fetch_cases with ⟨_, hf⟩ | ⟨hr, _⟩
  · exact hf
  · omega

/-- Settles O44: the fetch reads the word where the store wrote it. -/
theorem fetchSeesTheStoredWord : Obligations.FetchSeesTheStoredWord := by
  unfold Obligations.FetchSeesTheStoredWord
  intro s b a imm hal h
  obtain ⟨t, ht, _, hpar, hmem⟩ := exec_stw_stored hal h b
  have hfetch := State.fetch_of_inside (s := t.jump (effectiveAddress (s.reg a) imm))
    (by rwa [State.jump_par, State.jump_pc, hpar])
  have hword : Memory.readWord (t.jump (effectiveAddress (s.reg a) imm)).mem
      (t.jump (effectiveAddress (s.reg a) imm)).pc.toNat = s.reg b := by
    rw [State.jump_mem, State.jump_pc, hmem, Memory.readWord_writeWord_same]
  rw [hword] at hfetch
  exact ⟨t, ht, hfetch⟩

end Sys2Proof.Machine
end

/-! ### Arithmetic, shifts and compares with their values (40_alu, 41_compare) -/

section

namespace Sys2Proof.Machine

/-! #### Registers -/

theorem State.reg_setReg_same (s : State) {d : RegIx} (v : Word) (hd : d ≠ 0) : (s.setReg d v).reg d = v := by
  rw [State.reg_setReg, if_pos ⟨rfl, hd⟩]

@[simp] theorem State.setReg_setReg_same (s : State) (d : RegIx) (u v : Word) :
    (s.setReg d u).setReg d v = s.setReg d v := by
  by_cases hd : d = 0
  · subst hd
    rfl
  · simp only [State.setReg, if_neg hd, Vector.set_set]

/-- Settles O19: `r0` is special in the two accessors alone, so a load to it still performs its access. -/
theorem registerZeroIsHardwired : Obligations.RegisterZeroIsHardwired := by
  unfold Obligations.RegisterZeroIsHardwired
  refine ⟨State.reg_zero, fun s v => ⟨s.setReg_zero v, s.setReg_zero v⟩, ?_, ?_⟩
  · intro s a b
    rw [exec_add, State.setReg_zero]
  · intro s a imm h
    obtain ⟨hout, _⟩ := loadByte s 0 a imm
    obtain ⟨hldb, _⟩ := hout h
    exact hldb

/-! #### Exact results modulo 2^32 (R158) -/

theorem add_eq_ofNat (x y : Word) : x + y = BitVec.ofNat 32 (x.toNat + y.toNat) := by
  rw [BitVec.ofNat_add, BitVec.ofNat_toNat, BitVec.ofNat_toNat, BitVec.setWidth_eq, BitVec.setWidth_eq]

theorem add_eq_ofInt (x y : Word) : x + y = BitVec.ofInt 32 (x.toInt + y.toInt) := by
  rw [BitVec.ofInt_add, BitVec.ofInt_toInt, BitVec.ofInt_toInt]

theorem ofInt_sub (m n : Int) : BitVec.ofInt 32 (m - n) = BitVec.ofInt 32 m - BitVec.ofInt 32 n := by
  rw [Int.sub_eq_add_neg, BitVec.ofInt_add, BitVec.ofInt_neg, BitVec.sub_eq_add_neg]

theorem sub_eq_ofInt_toNat (x y : Word) : x - y = BitVec.ofInt 32 (x.toNat - y.toNat) := by
  rw [ofInt_sub, BitVec.ofInt_natCast, BitVec.ofInt_natCast, BitVec.ofNat_toNat, BitVec.ofNat_toNat, BitVec.setWidth_eq,
    BitVec.setWidth_eq]

theorem sub_eq_ofInt (x y : Word) : x - y = BitVec.ofInt 32 (x.toInt - y.toInt) := by
  rw [ofInt_sub, BitVec.ofInt_toInt, BitVec.ofInt_toInt]

@[simp] theorem simm_toInt (imm : BitVec 16) : (simm imm).toInt = imm.toInt :=
  BitVec.toInt_signExtend_of_le (by omega)

/-- What a register write reports: the value under both of its readings, and no overflow in status or log. -/
theorem answers_exact {o : Result} {s : State} {d : RegIx} {u v w : Word} (hd : d ≠ 0) (h : o = .next (s.setReg d u))
    (hv : u = v) (hw : u = w) :
    Answers o (fun t => t.reg d = v ∧ t.reg d = w ∧ t.status = s.status ∧ t.log = s.log) := by
  have hreg := s.reg_setReg_same u hd
  exact ⟨_, h, hreg.trans hv, hreg.trans hw, s.setReg_status d u, s.setReg_log d u⟩

theorem exec_addi (s : State) (b a : RegIx) (imm : BitVec 16) :
    exec (.addi b a imm) s = .next (s.setReg b (s.reg a + simm imm)) := rfl

/-- Settles O21: the sum and the difference of words are those of both readings, reduced modulo 2^32. -/
theorem arithmeticIsExactModulo : Obligations.ArithmeticIsExactModulo := by
  unfold Obligations.ArithmeticIsExactModulo
  intro s d a b imm hd
  refine ⟨?_, ?_, ?_⟩
  · exact answers_exact hd (exec_add s d a b) (add_eq_ofNat _ _) (add_eq_ofInt _ _)
  · exact answers_exact hd (exec_sub s d a b) (sub_eq_ofInt_toNat _ _) (sub_eq_ofInt _ _)
  · exact answers_exact hd (exec_addi s d a imm) (add_eq_ofNat _ _) (simm_toInt imm ▸ add_eq_ofInt _ _)

/-! #### Immediates (R98) and register shifts (R160) -/

theorem himm_eq_shiftLeft (imm : BitVec 16) : himm imm = imm.setWidth 32 <<< 16 := by
  apply BitVec.eq_of_getLsbD_eq
  intro i hi
  simp only [himm, BitVec.getLsbD_append, BitVec.getLsbD_shiftLeft, BitVec.getLsbD_setWidth]
  interval_cases i <;> simp

theorem exec_andi (s : State) (b a : RegIx) (imm : BitVec 16) :
    exec (.andi b a imm) s = .next (s.setReg b (s.reg a &&& uimm imm)) := rfl

theorem exec_andhi (s : State) (b a : RegIx) (imm : BitVec 16) :
    exec (.andhi b a imm) s = .next (s.setReg b (s.reg a &&& himm imm)) := rfl

theorem exec_ori (s : State) (b a : RegIx) (imm : BitVec 16) :
    exec (.ori b a imm) s = .next (s.setReg b (s.reg a ||| uimm imm)) := rfl

theorem exec_orhi (s : State) (b a : RegIx) (imm : BitVec 16) :
    exec (.orhi b a imm) s = .next (s.setReg b (s.reg a ||| himm imm)) := rfl

theorem exec_xori (s : State) (b a : RegIx) (imm : BitVec 16) :
    exec (.xori b a imm) s = .next (s.setReg b (s.reg a ^^^ uimm imm)) := rfl

theorem exec_xorhi (s : State) (b a : RegIx) (imm : BitVec 16) :
    exec (.xorhi b a imm) s = .next (s.setReg b (s.reg a ^^^ himm imm)) := rfl

/-- Settles O22: each is one register write of its rule's value; the high-half immediate is the immediate times 2^16. -/
theorem iFormatArithmeticAndLogic : Obligations.IFormatArithmeticAndLogic := by
  unfold Obligations.IFormatArithmeticAndLogic
  intro s b a imm
  simp only [← himm_eq_shiftLeft]
  exact ⟨answers_writesReg (exec_addi s b a imm) rfl, answers_writesReg (exec_andi s b a imm) rfl,
    answers_writesReg (exec_andhi s b a imm) rfl, answers_writesReg (exec_ori s b a imm) rfl,
    answers_writesReg (exec_orhi s b a imm) rfl, answers_writesReg (exec_xori s b a imm) rfl,
    answers_writesReg (exec_xorhi s b a imm) rfl⟩

theorem shiftAmount_eq_mod (v : Word) : shiftAmount v = v.toNat % 32 := by
  simp [shiftAmount]

theorem exec_sll (s : State) (c a b : RegIx) :
    exec (.sll c a b) s = .next (s.setReg c (s.reg a <<< shiftAmount (s.reg b))) := rfl

theorem exec_srl (s : State) (c a b : RegIx) :
    exec (.srl c a b) s = .next (s.setReg c (s.reg a >>> shiftAmount (s.reg b))) := rfl

/-- Settles O24: as the immediate shifts, by the amount the low five bits of x[B] give. -/
theorem registerShifts : Obligations.RegisterShifts := by
  unfold Obligations.RegisterShifts
  intro s c a b
  simp only [← shiftAmount_eq_mod]
  exact ⟨answers_writesReg (exec_sll s c a b) (shiftLeft_eq_ofNat_mul _ _),
    answers_writesReg (exec_srl s c a b) (ushiftRight_eq_ofNat_div _ _)⟩

/-! #### Immediate compares -/

theorem exec_cmpeqi (s : State) (b a : RegIx) (imm : BitVec 16) :
    exec (.cmpeqi b a imm) s = .next (s.setReg b (boolWord (s.reg a == simm imm))) := rfl

theorem exec_cmpnei (s : State) (b a : RegIx) (imm : BitVec 16) :
    exec (.cmpnei b a imm) s = .next (s.setReg b (boolWord (s.reg a != simm imm))) := rfl

theorem exec_cmpgei (s : State) (b a : RegIx) (imm : BitVec 16) :
    exec (.cmpgei b a imm) s = .next (s.setReg b (boolWord (geSigned (s.reg a) (simm imm)))) := rfl

theorem exec_cmplti (s : State) (b a : RegIx) (imm : BitVec 16) :
    exec (.cmplti b a imm) s = .next (s.setReg b (boolWord (ltSigned (s.reg a) (simm imm)))) := rfl

theorem eq_simm_iff (x : Word) (imm : BitVec 16) : x = simm imm ↔ x.toInt = imm.toInt := by
  rw [← BitVec.toInt_inj, simm_toInt]

/-- Settles O26: as the register compares, the immediate standing for its own signed value. -/
theorem immediateCompares : Obligations.ImmediateCompares := by
  unfold Obligations.ImmediateCompares
  intro s b a imm
  refine ⟨?_, ?_, ?_, ?_⟩
  · exact answers_writesReg (exec_cmpeqi s b a imm) (boolWord_eq_ite (beq_iff_eq.trans (eq_simm_iff _ _)))
  · exact answers_writesReg (exec_cmpnei s b a imm) (boolWord_eq_ite (bne_iff_ne.trans (eq_simm_iff _ _).not))
  · exact answers_writesReg (exec_cmpgei s b a imm) (boolWord_eq_ite (simm_toInt imm ▸ geSigned_iff _ _))
  · exact answers_writesReg (exec_cmplti s b a imm) (boolWord_eq_ite (simm_toInt imm ▸ ltSigned_iff _ _))

/-! #### Pseudo-instructions (30_encoding R115, R124, R126) -/

theorem himm_toNat (imm : BitVec 16) : (himm imm).toNat = imm.toNat * 2 ^ 16 := by
  rw [himm, BitVec.toNat_append, Nat.shiftLeft_eq]
  exact Nat.or_zero _

/-- The sign extension of R90 on numbers: a set top bit adds the ones above. -/
theorem simm_toNat (imm : BitVec 16) :
    (simm imm).toNat = imm.toNat + if 2 ^ 15 ≤ imm.toNat then 2 ^ 32 - 2 ^ 16 else 0 := by
  have himm := imm.isLt
  rw [simm, BitVec.toNat_signExtend, BitVec.toNat_setWidth, Nat.mod_eq_of_lt (by omega), BitVec.msb_eq_decide]
  simp

/-- `%hiadj` carries bit 15 up, which the sign extension of `%lo` takes back. -/
theorem himm_hiadj16_add_simm_lo16 (v : Word) : himm (hiadj16 v) + simm (lo16 v) = v := by
  apply BitVec.eq_of_toNat_eq
  have hv := v.isLt
  have hcarry : (v.extractLsb' 15 1).toNat = v.toNat / 2 ^ 15 % 2 ^ 1 := extractLsb'_toNat_eq_div_mod v 15 1
  have hlo : (lo16 v).toNat = v.toNat % 2 ^ 16 := by
    rw [lo16, extractLsb'_toNat_eq_div_mod, Nat.pow_zero, Nat.div_one]
  have hhi : (hiadj16 v).toNat = (v.toNat / 2 ^ 16 + v.toNat / 2 ^ 15 % 2) % 2 ^ 16 := by
    rw [hiadj16, hi16, BitVec.toNat_add, BitVec.toNat_setWidth, hcarry, extractLsb'_toNat_eq_div_mod]
    omega
  rw [BitVec.toNat_add, himm_toNat, simm_toNat, hlo, hhi]
  split <;> omega

/-- Settles O27: the second write replaces the first, whose value it adds to; in `r0` neither stays. -/
theorem moviaLoadsAnyValue : Obligations.MoviaLoadsAnyValue := by
  unfold Obligations.MoviaLoadsAnyValue
  intro s a v
  refine ⟨_, exec_orhi s a 0 (hiadj16 v), _, exec_addi _ a a (lo16 v), ?_⟩
  by_cases ha : a = 0
  · subst ha
    exact s.writesReg_setReg 0 v
  · rw [State.setReg_setReg_same, State.reg_setReg_same _ _ ha, State.reg_zero, BitVec.ofNat_eq_ofNat,
      BitVec.zero_or, himm_hiadj16_add_simm_lo16]
    exact s.writesReg_setReg a v

/-- Settles O28: `cmpge` with the sources exchanged tests "at least" the other way round. -/
theorem cmpleComparesLessOrEqual : Obligations.CmpleComparesLessOrEqual := by
  unfold Obligations.CmpleComparesLessOrEqual
  intro s a b c syms k
  exact ⟨rfl, rfl, answers_writesReg (exec_cmpge s a c b) (boolWord_eq_ite (geSigned_iff _ _))⟩

end Sys2Proof.Machine
end

/-! ### Control transfer (42_control) -/

section

namespace Sys2Proof.Machine

/-! #### Targets -/

/-- Sign extension leaves the low bits alone (R90). -/
theorem simm_toNat_mod_four (imm : BitVec 16) : (simm imm).toNat % 4 = imm.toNat % 4 := by
  rw [simm_toNat]
  split <;> omega

/-- Settles O31: modulo 4 the target is the immediate. -/
theorem branchTargetMisalignedByImmediate : Obligations.BranchTargetMisalignedByImmediate := by
  unfold Obligations.BranchTargetMisalignedByImmediate
  intro pc imm hpc
  have himm := simm_toNat_mod_four imm
  rw [misaligned_iff, branchTarget, BitVec.toNat_add]
  omega

/-- The target of R197 is three bit ranges side by side: four of `pc`, the immediate, two zeros. -/
theorem callTarget_eq_append (pc : Word) (n : BitVec 26) :
    callTarget pc n = pc.extractLsb' 28 4 ++ n ++ (0 : BitVec 2) := by
  apply BitVec.eq_of_getLsbD_eq
  intro i hi
  simp only [callTarget, BitVec.getLsbD_or, BitVec.getLsbD_and, BitVec.getLsbD_shiftLeft, BitVec.getLsbD_setWidth,
    BitVec.getLsbD_append, BitVec.getLsbD_extractLsb']
  interval_cases i <;> simp

theorem callTarget_toNat (pc : Word) (n : BitVec 26) :
    (callTarget pc n).toNat = pc.toNat / 2 ^ 28 * 2 ^ 28 + n.toNat * 4 := by
  have hpc := pc.isLt
  rw [callTarget_eq_append, BitVec.toNat_append, BitVec.toNat_append, extractLsb'_toNat_eq_div_mod,
    ← Nat.shiftLeft_add_eq_or_of_lt n.isLt, ← Nat.shiftLeft_add_eq_or_of_lt (0 : BitVec 2).isLt, Nat.shiftLeft_eq,
    Nat.shiftLeft_eq]
  simp only [BitVec.reduceToNat]
  omega

theorem callTarget_mod_four (pc : Word) (n : BitVec 26) : (callTarget pc n).toNat % 4 = 0 := by
  rw [callTarget_toNat]
  omega

/-! #### Branches (R191) -/

theorem State.branch_of_aligned {s : State} {imm : BitVec 16} (site : FaultSite) {cond : Bool} {p : Prop} [Decidable p]
    (hcond : cond = true ↔ p) (h : (branchTarget s.pc imm).toNat % 4 = 0) :
    s.branch site cond imm = .next { s with pc := if p then branchTarget s.pc imm else s.pc } := by
  rw [State.branch, if_neg fun hm => (misaligned_iff _).1 hm.1 h]
  by_cases hp : p
  · rw [if_pos (hcond.2 hp), if_pos hp, State.jump]
  · rw [if_neg (mt hcond.1 hp), if_neg hp]

/-- Both settings of BRANCH_ALIGN_CHECK at a misaligned target. -/
theorem State.branch_of_misaligned {s : State} {imm : BitVec 16} (site : FaultSite) {cond : Bool} {p : Prop}
    (hcond : cond = true ↔ p) (h : (branchTarget s.pc imm).toNat % 4 ≠ 0) :
    (p ∨ s.par.branchAlignCheck = .always →
      Answers (s.branch site cond imm) (Faults s (.misalignedAddress site s.pc (branchTarget s.pc imm)))) ∧
    (¬ p → s.par.branchAlignCheck = .takenOnly → s.branch site cond imm = .next s) := by
  have hm := (misaligned_iff _).2 h
  rw [State.branch, ← hcond]
  refine ⟨fun hc => ?_, fun hp htaken => ?_⟩
  · rw [if_pos ⟨hm, hc.symm⟩]
    exact answers_faults rfl
  · rw [if_neg (by simp [htaken, hp]), if_neg hp]

theorem exec_br (s : State) (imm : BitVec 16) : exec (.br imm) s = s.branch .br true imm := rfl

theorem exec_beq (s : State) (a b : RegIx) (imm : BitVec 16) :
    exec (.beq a b imm) s = s.branch .beq (s.reg a == s.reg b) imm := rfl

theorem exec_bne (s : State) (a b : RegIx) (imm : BitVec 16) :
    exec (.bne a b imm) s = s.branch .bne (s.reg a != s.reg b) imm := rfl

theorem exec_bge (s : State) (a b : RegIx) (imm : BitVec 16) :
    exec (.bge a b imm) s = s.branch .bge (geSigned (s.reg a) (s.reg b)) imm := rfl

theorem exec_blt (s : State) (a b : RegIx) (imm : BitVec 16) :
    exec (.blt a b imm) s = s.branch .blt (ltSigned (s.reg a) (s.reg b)) imm := rfl

/-- Settles O29: each branch is R191's with the test that decides its relation. -/
theorem branchesOnAlignedTargets : Obligations.BranchesOnAlignedTargets := by
  unfold Obligations.BranchesOnAlignedTargets
  intro s a b imm h
  rw [exec_br, exec_beq, exec_bne, exec_bge, exec_blt]
  exact ⟨State.branch_of_aligned .br (iff_of_true rfl trivial) h, State.branch_of_aligned .beq beq_iff_eq h,
    State.branch_of_aligned .bne bne_iff_ne h, State.branch_of_aligned .bge (geSigned_iff _ _) h,
    State.branch_of_aligned .blt (ltSigned_iff _ _) h⟩

/-- Settles O30: the same five tests at a misaligned target. -/
theorem branchesOnMisalignedTargets : Obligations.BranchesOnMisalignedTargets := by
  unfold Obligations.BranchesOnMisalignedTargets
  intro s a b imm h faultOf
  rw [exec_br, exec_beq, exec_bne, exec_bge, exec_blt]
  exact ⟨State.branch_of_misaligned .br (iff_of_true rfl trivial) h, State.branch_of_misaligned .beq beq_iff_eq h,
    State.branch_of_misaligned .bne bne_iff_ne h, State.branch_of_misaligned .bge (geSigned_iff _ _) h,
    State.branch_of_misaligned .blt (ltSigned_iff _ _) h⟩

/-! #### Call and return (R197 to R199) -/

theorem exec_call_of_guest {s : State} {n : BitVec 26} (h : s.syscallAt (callTarget s.pc n) = none) :
    exec (.call n) s = .next ((s.setReg raIndex s.pc).jump (callTarget s.pc n)) := by
  rw [exec, execCall, h]

theorem exec_call_of_host {s : State} {n : BitVec 26} {e : SyscallEntry}
    (h : s.syscallAt (callTarget s.pc n) = some e) :
    exec (.call n) s = .next ((s.setReg raIndex s.pc).runSyscall e) := by
  rw [exec, execCall, h]

theorem exec_ret_of_aligned {s : State} (h : (s.reg 31).toNat % 4 = 0) : exec .ret s = .next (s.jump (s.reg 31)) := by
  rw [exec, execRet, raIndex, if_neg fun hm => (misaligned_iff _).1 hm h]

theorem exec_ret_of_misaligned {s : State} (h : (s.reg 31).toNat % 4 ≠ 0) :
    exec .ret s = .next (s.raise (.misalignedAddress .ret s.pc (s.reg 31))) := by
  rw [exec, execRet, raIndex, if_pos ((misaligned_iff _).2 h)]

/-- `r31` is a register that keeps what is written. -/
theorem State.reg_setReg_raIndex (s : State) (v : Word) (r : RegIx) :
    (s.setReg raIndex v).reg r = if r = 31 then v else s.reg r := by
  rw [State.reg_setReg, raIndex]
  exact if_congr (and_iff_left_of_imp fun hr => hr ▸ by decide) rfl rfl

/-- Settles O32: a register write and a jump to an aligned target. -/
theorem callTransfersControl : Obligations.CallTransfersControl := by
  unfold Obligations.CallTransfersControl
  intro s n h
  refine ⟨_, exec_call_of_guest h, fun r => s.reg_setReg_raIndex s.pc r, ?_, callTarget_mod_four s.pc n, ?_, rfl⟩
  · exact eq_ofNat_of_toNat_eq (callTarget_toNat s.pc n)
  · intro x
    rw [State.jump_mem, State.setReg_mem]

theorem State.reg_runSyscall (s : State) (e : SyscallEntry) (r : RegIx) :
    (s.runSyscall e).reg r =
      if r = 0 then 0 else (Config.syscallAction e.action s.draws s.regs s.mem).regs[r.toNat]'(r.isLt) := by
  unfold State.reg
  split
  · rfl
  · next hr => exact Vector.getElem_set_ne (by omega) _ fun h0 => hr (BitVec.eq_of_toNat_eq h0.symm)

/-- Settles O33: the action runs on the state with `r31` written. -/
theorem systemCallRunsHostAction : Obligations.SystemCallRunsHostAction := by
  unfold Obligations.SystemCallRunsHostAction
  intro s n e h
  exact ⟨_, exec_call_of_host h, fun r => State.reg_runSyscall _ e r, rfl, Memory.ofCells_wf _ _,
    Memory.ofCells_within _ _, rfl, rfl, rfl⟩

/-- Settles O34: the two cases of the alignment check. -/
theorem retLoadsReturnAddress : Obligations.RetLoadsReturnAddress := by
  unfold Obligations.RetLoadsReturnAddress
  exact fun _ => ⟨exec_ret_of_aligned, fun h => answers_faults (exec_ret_of_misaligned h)⟩

/-- Settles O35: `ret` reads the `r31` that the call wrote. -/
theorem retAfterCallReturns : Obligations.RetAfterCallReturns := by
  unfold Obligations.RetAfterCallReturns
  intro s n hpc h
  have hra : ((s.setReg raIndex s.pc).jump (callTarget s.pc n)).reg 31 = s.pc := s.reg_setReg_raIndex s.pc 31
  refine ⟨_, exec_call_of_guest h, ?_⟩
  have hret := exec_ret_of_aligned (s := (s.setReg raIndex s.pc).jump (callTarget s.pc n)) (by rwa [hra])
  rwa [hra] at hret

/-! #### What the assembler encodes (30_encoding R117, R118) -/

/-- An offset within reach survives the cut to 16 bits (R90, R114). -/
theorem simm_imm16OfInt {n : Int} (hlo : -32768 ≤ n) (hhi : n ≤ 32767) : simm (imm16OfInt n) = BitVec.ofInt 32 n := by
  rw [simm, BitVec.signExtend, imm16OfInt, BitVec.toInt_ofInt_eq_self (by omega) (by omega) (by omega)]

/-- Settles O57: the offset is what R117 computes, and added to the post-increment pc it gives the label's address. -/
theorem assembledBranchLandsOnLabel : Obligations.AssembledBranchLandsOnLabel := by
  unfold Obligations.AssembledBranchLandsOnLabel
  intro syms name k j hlabel hlo hhi
  constructor
  · simp [Expr.branchOffset, Expr.resolve, Atom.resolve, hlabel]
  · rw [branchTarget, simm_imm16OfInt hlo hhi, ← BitVec.ofInt_natCast, ← BitVec.ofInt_add, ← BitVec.ofInt_natCast]
    congr 1
    omega

/-- Settles O58: the top four bits come from `pc`, the others from the target's word address. -/
theorem assembledCallReachesTarget : Obligations.AssembledCallReachesTarget := by
  unfold Obligations.AssembledCallReachesTarget
  intro pc t hal hregion
  have ht := t.isLt
  have himm : (imm26OfTarget (t.toNat : Int)).toNat = t.toNat / 4 % 2 ^ 26 := BitVec.toNat_ofNat _ _
  apply BitVec.eq_of_toNat_eq
  rw [callTarget_toNat, himm]
  omega

end Sys2Proof.Machine
end

/-! ### Reset and the step (10_state section 2, 70 sections 1 and 2) -/

section

namespace Sys2Proof.Machine

theorem State.reset_reg (r : RegIx) : State.reset.reg r = 0 := by
  simp [State.reg, State.reset, State.construct]

/-- Settles O10: field by field of what VM construction writes. -/
theorem resetState : Obligations.ResetState := by
  unfold Obligations.ResetState
  exact ⟨State.reset_reg, rfl, rfl, rfl, rfl, rfl, rfl, rfl, rfl, rfl⟩

/-- Settles O11: `pc` and slot 0 are 0, and an empty memory is canonical and inside any size. -/
theorem resetMeetsInvariant : Obligations.ResetMeetsInvariant := by
  unfold Obligations.ResetMeetsInvariant
  exact { pcAligned := rfl, slotZero := rfl, memCanonical := State.reset_mem_wf, memInside := rfl }

/-! #### One equation of the step for each of its cases -/

theorem step_of_halted {s : State} (h : s.status = .halted) : step s = .next s := by
  rw [step, State.cycle, h]

theorem step_of_faulted {s : State} {r : FaultRecord} (h : s.status = .faulted r) : step s = .fault (.aborted r) := by
  rw [step, State.cycle, h]

theorem step_of_atEnd {s : State} (hs : s.status = .running) (he : s.atEnd = true) :
    step s = .next { s with status := .halted } := by
  simp only [step, State.cycle, hs, he, if_true]

theorem step_of_fetch_fault {s : State} (hs : s.status = .running) (he : s.atEnd = false)
    (h : s.par.memSize < s.pc.toNat + 4) : step s = .next (s.raise (.outOfRange .fetch s.pc s.pc)) := by
  rcases s.fetch_cases with ⟨hr, _⟩ | ⟨_, hf⟩
  · omega
  · simp only [step, State.cycle, hs, he, hf, Bool.false_eq_true, if_false]

theorem step_of_fetched {s : State} (hs : s.status = .running) (he : s.atEnd = false)
    (h : s.pc.toNat + 4 ≤ s.par.memSize) :
    step s = State.execute { s with ir := Memory.readWord s.mem s.pc.toNat, pc := s.pc + 4 } := by
  simp only [step, State.cycle, hs, he, State.fetch_of_inside h, Bool.false_eq_true, if_false]

theorem State.execute_of_ok {s : State} {i : Instr} (h : decodeWord s.par.opcodes s.ir = .ok i) :
    s.execute = exec i s := by
  rw [State.execute, h]

theorem State.execute_of_error {s : State} {e : DecodeError} (h : decodeWord s.par.opcodes s.ir = .error e) :
    s.execute = s.unknown := by
  rw [State.execute, h]

/-- Four bytes decode to what the word they join to decodes to. -/
theorem decodeWord_of_decode {v : OpcodeValues} {b0 b1 b2 b3 : Byte} {i : Instr}
    (h : decode v [b0, b1, b2, b3] = .ok (i, [])) : decodeWord v (wordOfBytes b0 b1 b2 b3) = .ok i := by
  rw [decode] at h
  cases hw : decodeWord v (wordOfBytes b0 b1 b2 b3) with
  | ok j => simpa [hw, Except.map] using h
  | error e => simp [hw, Except.map] at h

/-- Settles O14: the word fetched is the four bytes joined. -/
theorem stepRunsTheDecodedInstruction : Obligations.StepRunsTheDecodedInstruction := by
  unfold Obligations.StepRunsTheDecodedInstruction
  intro s i hs he hr hd
  rw [step_of_fetched hs he hr]
  exact State.execute_of_ok (decodeWord_of_decode hd)

/-- The end test reads HALT_CMP only past the end (R276). -/
theorem State.atEnd_iff (s : State) :
    s.atEnd = true ↔ s.pc.toNat = s.programEnd ∨ (s.programEnd < s.pc.toNat ∧ s.par.haltCmp = .ge) := by
  unfold State.atEnd
  split
  · next heq => exact iff_of_true rfl (.inl heq)
  · next hne =>
    split
    · next hlt => exact iff_of_false (by simp) (by omega)
    · next hge =>
      have hgt : s.programEnd < s.pc.toNat := by omega
      simp [hne, hgt]

/-- Settles O15: the two settings of the end test, and the step it stops. -/
theorem runHaltsAtProgramEnd : Obligations.RunHaltsAtProgramEnd := by
  unfold Obligations.RunHaltsAtProgramEnd
  refine ⟨fun s h => ?_, fun s h => ?_, fun s hs he => step_of_atEnd hs he⟩
  · rw [State.atEnd_iff, h]
    simp [State.programEnd]
  · rw [State.atEnd_iff, State.programEnd, and_iff_left h]
    omega

/-- Settles O16: the two statuses in which a step does not read the rest of the state. -/
theorem stoppedMachineDoesNotResume : Obligations.StoppedMachineDoesNotResume := by
  unfold Obligations.StoppedMachineDoesNotResume
  exact ⟨fun _ h => step_of_halted h, fun _ _ h => step_of_faulted h⟩

/-- Settles O17: the fetch is the first thing a running machine short of its end does. -/
theorem fetchOutsideMemoryFaults : Obligations.FetchOutsideMemoryFaults := by
  unfold Obligations.FetchOutsideMemoryFaults
  exact fun _ hs he h => answers_faults (step_of_fetch_fault hs he h)

theorem State.unknown_of_skip {s : State} (h : s.par.unknownPolicy = .skip) :
    s.unknown = .next { s with log := s.log ++ [{ addr := s.pc - 4, word := s.ir }] } := by
  rw [State.unknown, h]

theorem State.unknown_of_fault {s : State} (h : s.par.unknownPolicy = .fault) :
    s.unknown = .next (s.raise (.unknownInstruction s.pc s.ir)) := by
  rw [State.unknown, h]

/-- Settles O18: the event's address is the post-increment pc less 4, which is the word's own. -/
theorem unknownWordIsLoggedOrFaults : Obligations.UnknownWordIsLoggedOrFaults := by
  unfold Obligations.UnknownWordIsLoggedOrFaults
  intro s e hs he hr hd
  rw [step_of_fetched hs he hr, State.execute_of_error hd]
  refine ⟨fun hp => ?_, fun hp => State.unknown_of_fault hp⟩
  have hskip := State.unknown_of_skip (s := { s with ir := Memory.readWord s.mem s.pc.toNat, pc := s.pc + 4 }) hp
  simpa only [BitVec.add_sub_cancel] using hskip

end Sys2Proof.Machine
end

/-! ### Outcomes (60_exceptions sections 1 and 2) -/

section

namespace Sys2Proof.Machine

theorem State.load_total (s : State) (site : FaultSite) (w : Width) (ext : Word → Word) (b : RegIx) (a : Word) :
    ∃ t, s.load site w ext b a = .next t := by
  unfold State.load
  split <;> exact ⟨_, rfl⟩

theorem State.store_total (s : State) (site : FaultSite) (w : Width) (a v : Word) :
    ∃ t, s.store site w a v = .next t := by
  unfold State.store
  split <;> exact ⟨_, rfl⟩

theorem State.branch_total (s : State) (site : FaultSite) (cond : Bool) (imm : BitVec 16) :
    ∃ t, s.branch site cond imm = .next t := by
  unfold State.branch
  split
  · exact ⟨_, rfl⟩
  · split <;> exact ⟨_, rfl⟩

theorem execCall_total (n : BitVec 26) (s : State) : ∃ t, execCall n s = .next t := by
  unfold execCall
  split <;> exact ⟨_, rfl⟩

theorem execRet_total (s : State) : ∃ t, execRet s = .next t := by
  unfold execRet
  split <;> exact ⟨_, rfl⟩

/-- Settles O45: the shared operations answer a next state in each of their cases, and every other meaning is one register
write. -/
theorem everyInstructionAnswersNext : Obligations.EveryInstructionAnswersNext := by
  unfold Obligations.EveryInstructionAnswersNext
  intro i s
  cases i
  case br | beq | bne | bge | blt => exact s.branch_total _ _ _
  case call n => exact execCall_total n s
  case ret => exact execRet_total s
  case ldw | ldb | ldbu => exact s.load_total _ _ _ _ _
  case stw | stb => exact s.store_total _ _ _ _
  all_goals exact ⟨_, rfl⟩

theorem State.unknown_total (s : State) : ∃ t, s.unknown = .next t := by
  unfold State.unknown
  split <;> exact ⟨_, rfl⟩

theorem State.execute_total (s : State) : ∃ t, s.execute = .next t := by
  rcases s.execute_cases with ⟨i, _, hexec⟩ | ⟨e, _, hunknown⟩
  · exact hexec ▸ everyInstructionAnswersNext i s
  · exact hunknown ▸ s.unknown_total

theorem step_total_of_running {s : State} (hs : s.status = .running) : ∃ t, step s = .next t := by
  cases he : s.atEnd with
  | true => exact ⟨_, step_of_atEnd hs he⟩
  | false =>
    rcases Nat.lt_or_ge s.par.memSize (s.pc.toNat + 4) with hout | hin
    · exact ⟨_, step_of_fetch_fault hs he hout⟩
    · exact step_of_fetched hs he hin ▸ State.execute_total _

/-- Settles O46: by the status. -/
theorem stepStopsOnlyAfterAFault : Obligations.StepStopsOnlyAfterAFault := by
  unfold Obligations.StepStopsOnlyAfterAFault
  intro s
  cases hs : s.status with
  | running =>
    obtain ⟨t, ht⟩ := step_total_of_running hs
    exact .inl ⟨t, ht, fun r => nofun⟩
  | halted => exact .inl ⟨s, step_of_halted hs, fun r => nofun⟩
  | faulted r => exact .inr ⟨r, rfl, step_of_faulted hs⟩

end Sys2Proof.Machine
end

/-! ### Frames of an instruction and of a step (10_state sections 1 and 2, 60_exceptions section 2) -/

section

namespace Sys2Proof.Machine

/-! #### What a host action leaves alone (R253) -/

@[simp] theorem State.runSyscall_ir (s : State) (e : SyscallEntry) : (s.runSyscall e).ir = s.ir := rfl

@[simp] theorem State.runSyscall_status (s : State) (e : SyscallEntry) : (s.runSyscall e).status = s.status := rfl

@[simp] theorem State.runSyscall_log (s : State) (e : SyscallEntry) : (s.runSyscall e).log = s.log := rfl

@[simp] theorem State.runSyscall_par (s : State) (e : SyscallEntry) : (s.runSyscall e).par = s.par := rfl

@[simp] theorem State.runSyscall_syscalls (s : State) (e : SyscallEntry) : (s.runSyscall e).syscalls = s.syscalls := rfl

@[simp] theorem State.runSyscall_program (s : State) (e : SyscallEntry) : (s.runSyscall e).program = s.program := rfl

/-! #### An instruction -/

/-- Settles O47: of the effects only the fault touches the status. -/
theorem faultingInstructionChangesOnlyStatus : Obligations.FaultingInstructionChangesOnlyStatus := by
  unfold Obligations.FaultingInstructionChangesOnlyStatus
  intro i s t h hst
  cases exec_effect h with
  | register d v eq => exact absurd (by simp [eq]) hst
  | fault r eq record =>
    rcases record with ⟨site, addr, rfl, hm⟩ | ⟨site, addr, rfl, hr⟩
    · exact ⟨site, addr, .inl ⟨eq, (misaligned_iff addr).1 hm⟩⟩
    · exact ⟨site, addr, .inr ⟨eq, hr⟩⟩
  | stay eq => exact absurd (by simp [eq]) hst
  | jump p eq => exact absurd (by simp [eq]) hst
  | call p eq => exact absurd (by simp [eq]) hst
  | host e eq => exact absurd (by simp [eq]) hst
  | store a v w eq => exact absurd (by simp [eq]) hst

/-- Settles O48: the two effects that write a register write the destination. -/
theorem onlyTheDestinationRegisterChanges : Obligations.OnlyTheDestinationRegisterChanges := by
  unfold Obligations.OnlyTheDestinationRegisterChanges
  intro i s t r h hhost hdest
  cases exec_effect h with
  | register d v eq dest =>
    have hne : r ≠ d := fun e => hdest (e ▸ dest)
    rw [eq, State.reg_setReg, if_neg fun hr => hne hr.1]
  | fault f eq => rw [eq, State.reg_raise]
  | stay eq => rw [eq]
  | jump p eq => rw [eq, State.reg_jump]
  | call p eq aligned transfer dest =>
    have hne : r ≠ raIndex := fun e => hdest (e ▸ dest)
    rw [eq, State.reg_jump, State.reg_setReg, if_neg fun hr => hne hr.1]
  | host e eq transfer bound => exact absurd bound (by simp [hhost])
  | store a v w eq => rw [eq]; rfl

/-- Settles O50: the two effects that write memory are a store's and a system call's. -/
theorem onlyStoresAndSystemCallsChangeMemory : Obligations.OnlyStoresAndSystemCallsChangeMemory := by
  unfold Obligations.OnlyStoresAndSystemCallsChangeMemory
  intro i s t h hstore hhost
  cases exec_effect h with
  | register d v eq => rw [eq, State.setReg_mem]
  | fault r eq => rw [eq, State.raise_mem]
  | stay eq => rw [eq]
  | jump p eq => rw [eq, State.jump_mem]
  | call p eq => rw [eq, State.jump_mem, State.setReg_mem]
  | host e eq transfer bound => exact absurd bound (by simp [hhost])
  | store a v w eq inside isStore => exact absurd isStore (by simp [hstore])

/-- Settles O51: the effects of the other instructions are a register write, a store and a fault. -/
theorem onlyControlTransfersChangePc : Obligations.OnlyControlTransfersChangePc := by
  unfold Obligations.OnlyControlTransfersChangePc
  intro i s t h hplain
  cases exec_effect h with
  | register d v eq => rw [eq, State.setReg_pc]
  | fault r eq => rw [eq, State.raise_pc]
  | stay eq => rw [eq]
  | jump p eq aligned transfer => exact absurd transfer (by simp [hplain])
  | call p eq aligned transfer => exact absurd transfer (by simp [hplain])
  | host e eq transfer => exact absurd transfer (by simp [hplain])
  | store a v w eq => rw [eq]

/-! #### What no step touches but the log of an unknown word -/

/-- `t` holds what only the host sets as `s` does (70 section 5). -/
def State.SameSettings (s t : State) : Prop := t.par = s.par ∧ t.syscalls = s.syscalls ∧ t.program = s.program

/-- No instruction touches the host's settings, `IR` or the log. -/
theorem exec_keeps {i : Instr} {s t : State} (h : exec i s = .next t) :
    s.SameSettings t ∧ t.ir = s.ir ∧ t.log = s.log := by
  unfold State.SameSettings
  cases exec_effect h with
  | register d v eq => simp [eq]
  | fault r eq => simp [eq]
  | stay eq => simp [eq]
  | jump p eq => simp [eq]
  | call p eq => simp [eq]
  | host e eq => simp [eq]
  | store a v w eq => simp [eq]

theorem State.unknown_sameSettings {s t : State} (h : s.unknown = .next t) : s.SameSettings t := by
  rcases State.unknown_next h with ⟨_, rfl⟩ | ⟨_, rfl⟩ <;> exact ⟨rfl, rfl, rfl⟩

theorem State.execute_sameSettings {s t : State} (h : s.execute = .next t) : s.SameSettings t := by
  rcases s.execute_cases with ⟨i, _, hexec⟩ | ⟨e, _, hunknown⟩
  · exact (exec_keeps (hexec.symm.trans h)).1
  · exact State.unknown_sameSettings (hunknown.symm.trans h)

/-- Settles O52: a fetch touches none of them, nor does what follows it. -/
theorem stepKeepsHostSettings : Obligations.StepKeepsHostSettings := by
  unfold Obligations.StepKeepsHostSettings
  intro s t h
  rcases step_cases h with ⟨_, rfl⟩ | ⟨_, _, rfl⟩ | ⟨_, _, _, rfl⟩ | ⟨_, _, _, hexecute⟩
  · exact ⟨rfl, rfl, rfl⟩
  · exact ⟨rfl, rfl, rfl⟩
  · exact ⟨rfl, rfl, rfl⟩
  · exact (State.execute_sameSettings hexecute :)

/-- Settles O53: only an unknown word under `skip` is logged, at the post-increment pc less 4. -/
theorem logGrowsOnlyByUnknownWords : Obligations.LogGrowsOnlyByUnknownWords := by
  unfold Obligations.LogGrowsOnlyByUnknownWords
  intro s t h
  rcases step_cases h with ⟨_, rfl⟩ | ⟨_, _, rfl⟩ | ⟨_, _, _, rfl⟩ | ⟨_, _, _, hexecute⟩
  · exact .inl rfl
  · exact .inl rfl
  · exact .inl rfl
  · rcases State.execute_cases { s with ir := Memory.readWord s.mem s.pc.toNat, pc := s.pc + 4 } with
      ⟨i, _, hexec⟩ | ⟨e, hd, hunknown⟩
    · obtain ⟨_, _, hlog⟩ := exec_keeps (hexec.symm.trans hexecute)
      exact .inl hlog
    · rcases State.unknown_next (hunknown.symm.trans hexecute) with ⟨_, rfl⟩ | ⟨_, rfl⟩
      · refine .inr ⟨Memory.readWord s.mem s.pc.toNat, ?_, rfl, e, hd⟩
        simp only [BitVec.add_sub_cancel]
      · exact .inl rfl

end Sys2Proof.Machine
end

/-! ### Two register files that agree on the sources (10_state R23) -/

section

namespace Sys2Proof.Machine

/-- What is stated of the next states of one instruction under two register files. -/
def SameResult (i : Instr) (t t' : State) : Prop :=
  t'.pc = t.pc ∧ t'.mem = t.mem ∧ t'.status = t.status ∧ t'.log = t.log ∧
    (t.status = .running → ∀ r, i.dest = some r → t'.reg r = t.reg r)

section

variable {i : Instr} {s t t' : State} {regs' : Vector Word 32}

/-! #### Operations that read no register answer the same state, the register file apart -/

theorem State.branch_withRegs {site : FaultSite} {cond : Bool} {imm : BitVec 16}
    (h : s.branch site cond imm = .next t) :
    ({ s with regs := regs' } : State).branch site cond imm = .next { t with regs := regs' } := by
  unfold State.branch at h ⊢
  split at h
  · next hc => cases h; exact if_pos hc
  · next hc =>
    split at h
    · next hcond => cases h; exact (if_neg hc).trans (if_pos hcond)
    · next hcond => cases h; exact (if_neg hc).trans (if_neg hcond)

theorem State.store_withRegs {site : FaultSite} {w : Width} {a v : Word} (h : s.store site w a v = .next t) :
    ({ s with regs := regs' } : State).store site w a v = .next { t with regs := regs' } := by
  rcases State.store_next h with ⟨r, hr, rfl⟩ | ⟨hn, rfl⟩
  · exact State.store_of_fault (s := { s with regs := regs' }) hr v
  · unfold State.store
    rw [show ({ s with regs := regs' } : State).accessFault site w a = none from hn]

theorem execRet_withRegs (hra : ({ s with regs := regs' } : State).reg raIndex = s.reg raIndex)
    (h : execRet s = .next t) : execRet { s with regs := regs' } = .next { t with regs := regs' } := by
  unfold execRet
  rw [hra]
  rcases execRet_next h with ⟨hm, rfl⟩ | ⟨hm, rfl⟩
  · exact if_pos hm
  · exact if_neg (by simp [hm])

/-! #### The shapes of instruction -/

theorem SameResult.of_withRegs (hd : i.dest = none) {o : Result} (h' : o = .next t')
    (ho : o = .next { t with regs := regs' }) : SameResult i t t' := by
  cases ho.symm.trans h'
  exact ⟨rfl, rfl, rfl, rfl, fun _ r hr => nomatch hd.symm.trans hr⟩

/-- A register reads back one value in both files; `r0` reads 0 in both. -/
theorem State.reg_setReg_eq_reg_setReg (s s' : State) (d : RegIx) (v : Word) :
    (s'.setReg d v).reg d = (s.setReg d v).reg d := by
  by_cases hd : d = 0
  · subst hd
    rfl
  · rw [State.reg_setReg_same _ _ hd, State.reg_setReg_same _ _ hd]

theorem SameResult.setReg {d : RegIx} (hd : i.dest = some d) (s : State) (regs' : Vector Word 32) (v : Word) :
    SameResult i (s.setReg d v) (({ s with regs := regs' } : State).setReg d v) := by
  refine ⟨by simp, by simp, by simp, by simp, fun _ r hr => ?_⟩
  obtain rfl : d = r := Option.some.inj (hd.symm.trans hr)
  exact State.reg_setReg_eq_reg_setReg _ _ _ _

theorem SameResult.of_setReg {d : RegIx} {v v' : Word} {o o' : Result} (hd : i.dest = some d) (h : o = .next t)
    (h' : o' = .next t') (ho : o = .next (s.setReg d v))
    (ho' : o' = .next (({ s with regs := regs' } : State).setReg d v')) (hv : v' = v) : SameResult i t t' := by
  subst hv
  cases ho.symm.trans h
  cases ho'.symm.trans h'
  exact .setReg hd s regs' v'

/-- A load takes its value from memory, at an address the two files agree on. -/
theorem SameResult.of_load {site : FaultSite} {w : Width} {ext : Word → Word} {b : RegIx} {a a' : Word}
    (hd : i.dest = some b) (h : s.load site w ext b a = .next t)
    (h' : ({ s with regs := regs' } : State).load site w ext b a' = .next t') (ha : a' = a) : SameResult i t t' := by
  subst ha
  rcases State.load_next h with ⟨r, hr, rfl⟩ | ⟨hn, rfl⟩ <;>
    rcases State.load_next h' with ⟨r', hr', rfl⟩ | ⟨hn', rfl⟩
  · obtain rfl : r = r' := Option.some.inj (hr.symm.trans hr')
    exact ⟨rfl, rfl, rfl, rfl, fun hrun => nomatch hrun⟩
  · exact nomatch hr.symm.trans hn'
  · exact nomatch hn.symm.trans hr'
  · exact .setReg hd s regs' _

theorem SameResult.of_call {n : BitVec 26} (hhost : s.callsHost (.call n) = false) (h : exec (.call n) s = .next t)
    (h' : exec (.call n) { s with regs := regs' } = .next t') : SameResult (.call n) t t' := by
  have hguest : s.syscallAt (callTarget s.pc n) = none := by simpa [State.callsHost] using hhost
  cases (exec_call_of_guest hguest).symm.trans h
  cases (exec_call_of_guest (s := { s with regs := regs' }) hguest).symm.trans h'
  obtain ⟨_, hmem, hstatus, hlog, hreg⟩ := SameResult.setReg (i := .call n) (d := raIndex) rfl s regs' s.pc
  exact ⟨rfl, hmem, hstatus, hlog, hreg⟩

end

/-- Settles O49: by the shape of the instruction, whose operands are the same in both files. -/
theorem resultDependsOnSourceRegisters : Obligations.ResultDependsOnSourceRegisters := by
  unfold Obligations.ResultDependsOnSourceRegisters
  intro i s regs' t t' _ hhost hsrc h h'
  suffices SameResult i t t' from this
  cases i
  case add c a b | sub c a b | and c a b | or c a b | xor c a b | nor c a b | sll c a b | srl c a b | cmpeq c a b |
      cmpne c a b | cmpge c a b | cmplt c a b =>
    have ha := hsrc a (.head _)
    have hb := hsrc b (.tail _ (.head _))
    exact .of_setReg rfl h h' rfl rfl (by rw [ha, hb])
  case addi b a imm | andi b a imm | andhi b a imm | ori b a imm | orhi b a imm | xori b a imm | xorhi b a imm |
      cmpeqi b a imm | cmpnei b a imm | cmpgei b a imm | cmplti b a imm | slli b a imm | srli b a imm =>
    exact .of_setReg rfl h h' rfl rfl (by rw [hsrc a (.head _)])
  case br imm => exact .of_withRegs rfl h' (State.branch_withRegs h)
  case beq a b imm | bne a b imm | bge a b imm | blt a b imm =>
    have ha := hsrc a (.head _)
    have hb := hsrc b (.tail _ (.head _))
    refine .of_withRegs (regs' := regs') rfl h' ?_
    simp only [exec_beq, exec_bne, exec_bge, exec_blt, ha, hb]
    exact State.branch_withRegs h
  case call n => exact .of_call hhost h h'
  case ret => exact .of_withRegs rfl h' (execRet_withRegs (hsrc 31 (.head _)) h)
  case ldw b imm a | ldb b imm a | ldbu b imm a => exact .of_load rfl h h' (by rw [hsrc a (.head _)])
  case stw b imm a | stb b imm a =>
    have ha := hsrc a (.head _)
    have hb := hsrc b (.tail _ (.head _))
    refine .of_withRegs (regs' := regs') rfl h' ?_
    simp only [exec_stw, exec_stb, ha, hb]
    exact State.store_withRegs h

end Sys2Proof.Machine
end
